-- ==== Sys2Proof/Word.lean ====
section
/-! DEFINITION. The words of the machine: bytes, 16-bit words and register numbers. -/

namespace Sys2Proof

/-- An 8-bit value: a register, a timer, a memory byte (spec/10_state.md R20). -/
abbrev Byte := BitVec 8

/-- A 16-bit value: an instruction word, pc, I, a stack entry (spec/10_state.md R20). -/
abbrev Word := BitVec 16

/-- A register number 0x0 to 0xF (spec/10_state.md R21). -/
abbrev Reg := Fin 16

/-- V0, the base register of BNNN (spec/40_control_flow.md R84). -/
abbrev Reg.v0 : Reg := 0

/-- VF, the register that doubles as the flag output (spec/10_state.md R22). -/
abbrev Reg.vf : Reg := 15

end Sys2Proof
end

