-- ==== Sys2Proof/Syntax.lean ====
section
/-! DEFINITION. The 34 instruction forms of spec/30_encoding.md R70, one constructor per row of
spec/opcode_table.json, with the fields of R66: X and Y name registers, NN, NNN and N are immediates. -/

namespace Sys2Proof

/-- The instruction set. Every field has exactly the width R66 gives it, so every term is a legal instruction. -/
inductive Instr where
  /-- 00E0 CLS (R113) -/
  | cls
  /-- 00EE RET (R81) -/
  | ret
  /-- 1NNN JP addr (R82) -/
  | jp (nnn : BitVec 12)
  /-- 2NNN CALL addr (R83) -/
  | call (nnn : BitVec 12)
  /-- 3XNN SE Vx, byte (R85) -/
  | seByte (x : Reg) (nn : Byte)
  /-- 4XNN SNE Vx, byte (R86) -/
  | sneByte (x : Reg) (nn : Byte)
  /-- 5XY0 SE Vx, Vy (R87) -/
  | seReg (x y : Reg)
  /-- 6XNN LD Vx, byte (R93) -/
  | ldByte (x : Reg) (nn : Byte)
  /-- 7XNN ADD Vx, byte (R94) -/
  | addByte (x : Reg) (nn : Byte)
  /-- 8XY0 LD Vx, Vy (R95) -/
  | ldReg (x y : Reg)
  /-- 8XY1 OR Vx, Vy (R96) -/
  | orReg (x y : Reg)
  /-- 8XY2 AND Vx, Vy (R97) -/
  | andReg (x y : Reg)
  /-- 8XY3 XOR Vx, Vy (R98) -/
  | xorReg (x y : Reg)
  /-- 8XY4 ADD Vx, Vy (R99) -/
  | addReg (x y : Reg)
  /-- 8XY5 SUB Vx, Vy (R100) -/
  | subReg (x y : Reg)
  /-- 8XY6 SHR Vx (R101); y is a field of the word that the meaning ignores -/
  | shr (x y : Reg)
  /-- 8XY7 SUBN Vx, Vy (R102) -/
  | subn (x y : Reg)
  /-- 8XYE SHL Vx (R103); y is a field of the word that the meaning ignores -/
  | shl (x y : Reg)
  /-- 9XY0 SNE Vx, Vy (R88) -/
  | sneReg (x y : Reg)
  /-- ANNN LD I, addr (R105) -/
  | ldI (nnn : BitVec 12)
  /-- BNNN JP V0, addr (R84) -/
  | jpV0 (nnn : BitVec 12)
  /-- CXNN RND Vx, byte (R104) -/
  | rnd (x : Reg) (nn : Byte)
  /-- DXYN DRW Vx, Vy, nibble (R114) -/
  | drw (x y : Reg) (n : BitVec 4)
  /-- EX9E SKP Vx (R120) -/
  | skp (x : Reg)
  /-- EXA1 SKNP Vx (R121) -/
  | sknp (x : Reg)
  /-- FX07 LD Vx, DT (R123) -/
  | ldVxDt (x : Reg)
  /-- FX0A LD Vx, K (R124) -/
  | ldVxKey (x : Reg)
  /-- FX15 LD DT, Vx (R125) -/
  | ldDtVx (x : Reg)
  /-- FX18 LD ST, Vx (R126) -/
  | ldStVx (x : Reg)
  /-- FX1E ADD I, Vx (R106) -/
  | addI (x : Reg)
  /-- FX29 LD F, Vx (R107) -/
  | ldFont (x : Reg)
  /-- FX33 LD B, Vx (R108) -/
  | ldBcd (x : Reg)
  /-- FX55 LD [I], Vx (R109) -/
  | storeRegs (x : Reg)
  /-- FX65 LD Vx, [I] (R110) -/
  | loadRegs (x : Reg)
  deriving DecidableEq, Repr

end Sys2Proof
end

