-- ==== Sys2Proof/Decode.lean ====
section
/-! DEFINITION. Decode, total on any word and any bytes, rejecting by name (spec/30_encoding.md R64, R79); then the
encoder, written from the formats of R67. -/

namespace Sys2Proof

/-- R64: decode's answer is "an explicit tagged variant", an instruction or `Unknown(word)`. -/
inductive Decoded where
  | known (i : Instr)
  | unknown (w : Word)
  deriving DecidableEq, Repr

/-- Why a byte stream starts with no instruction. -/
inductive DecodeError where
  /-- The first word selects no row of the opcode map (R73). -/
  | unknown (w : Word)
  /-- Fewer than the two bytes every instruction has (R75). -/
  | truncated
  deriving DecidableEq, Repr

namespace Field

/-- n1 = w[15:12], the primary selector (R66). -/
def n1 (w : Word) : BitVec 4 := w.extractLsb 15 12

/-- n4 = w[3:0], the sub-function of groups 5, 8 and 9 (R66). -/
def n4 (w : Word) : BitVec 4 := w.extractLsb 3 0

/-- X = w[11:8] as a register number (R66, R68). -/
def x (w : Word) : Reg := (w.extractLsb 11 8).toFin

/-- Y = w[7:4] as a register number (R66, R68). -/
def y (w : Word) : Reg := (w.extractLsb 7 4).toFin

/-- NN = w[7:0] (R66, R68). -/
def nn (w : Word) : Byte := w.extractLsb 7 0

/-- NNN = w[11:0] (R66, R68). -/
def nnn (w : Word) : BitVec 12 := w.extractLsb 11 0

end Field

/-- Group 8: the sub-function is the low nibble (R70 rows 10 to 18, R71). -/
def decodeAlu (w : Word) : Decoded :=
  match (Field.n4 w).toNat with
  | 0x0 => .known (.ldReg (Field.x w) (Field.y w))
  | 0x1 => .known (.orReg (Field.x w) (Field.y w))
  | 0x2 => .known (.andReg (Field.x w) (Field.y w))
  | 0x3 => .known (.xorReg (Field.x w) (Field.y w))
  | 0x4 => .known (.addReg (Field.x w) (Field.y w))
  | 0x5 => .known (.subReg (Field.x w) (Field.y w))
  | 0x6 => .known (.shr (Field.x w) (Field.y w))
  | 0x7 => .known (.subn (Field.x w) (Field.y w))
  | 0xE => .known (.shl (Field.x w) (Field.y w))
  | _ => .unknown w

/-- Group F: the sub-function is the low byte (R70 rows 26 to 34). -/
def decodeMisc (w : Word) : Decoded :=
  match (Field.nn w).toNat with
  | 0x07 => .known (.ldVxDt (Field.x w))
  | 0x0A => .known (.ldVxKey (Field.x w))
  | 0x15 => .known (.ldDtVx (Field.x w))
  | 0x18 => .known (.ldStVx (Field.x w))
  | 0x1E => .known (.addI (Field.x w))
  | 0x29 => .known (.ldFont (Field.x w))
  | 0x33 => .known (.ldBcd (Field.x w))
  | 0x55 => .known (.storeRegs (Field.x w))
  | 0x65 => .known (.loadRegs (Field.x w))
  | _ => .unknown w

/-- Decode (R64): reads only the word; every word that matches no row of R70 is unknown (R73, R74, R79). -/
def decode (w : Word) : Decoded :=
  match (Field.n1 w).toNat with
  | 0x0 => if w = 0x00E0 then .known .cls else if w = 0x00EE then .known .ret else .unknown w
  | 0x1 => .known (.jp (Field.nnn w))
  | 0x2 => .known (.call (Field.nnn w))
  | 0x3 => .known (.seByte (Field.x w) (Field.nn w))
  | 0x4 => .known (.sneByte (Field.x w) (Field.nn w))
  | 0x5 => if Field.n4 w = 0 then .known (.seReg (Field.x w) (Field.y w)) else .unknown w
  | 0x6 => .known (.ldByte (Field.x w) (Field.nn w))
  | 0x7 => .known (.addByte (Field.x w) (Field.nn w))
  | 0x8 => decodeAlu w
  | 0x9 => if Field.n4 w = 0 then .known (.sneReg (Field.x w) (Field.y w)) else .unknown w
  | 0xA => .known (.ldI (Field.nnn w))
  | 0xB => .known (.jpV0 (Field.nnn w))
  | 0xC => .known (.rnd (Field.x w) (Field.nn w))
  | 0xD => .known (.drw (Field.x w) (Field.y w) (Field.n4 w))
  | 0xE =>
    if Field.nn w = 0x9E then .known (.skp (Field.x w))
    else if Field.nn w = 0xA1 then .known (.sknp (Field.x w)) else .unknown w
  | 0xF => decodeMisc w
  | _ => .unknown w

/-- The word of two bytes in stream order, big-endian: the first byte supplies bits 15:8 (spec/20_memory.md R46). -/
def wordOfBytes (hi lo : Byte) : Word := hi ++ lo

/-- The two bytes of a word in stream order (R46). -/
def bytesOfWord (w : Word) : List Byte := [w.extractLsb 15 8, w.extractLsb 7 0]

/-- The first instruction of a raw instruction stream and the rest of it (spec/70_reset_and_hazards.md R165). -/
def decodeBytes : List Byte → Except DecodeError (Instr × List Byte)
  | hi :: lo :: rest =>
    match decode (wordOfBytes hi lo) with
    | .known i => .ok (i, rest)
    | .unknown w => .error (.unknown w)
  | _ => .error .truncated

/-- The instruction the decoder reads from a word numbered as spec/opcode_table.json numbers it: one 16-bit word, bit 0
least significant, every bit above nbits 0. The word is laid out as memory holds it and given to the decoder. -/
def decodeTableWord (nbits w : Nat) : Option Instr :=
  match decodeBytes (bytesOfWord (BitVec.ofNat 16 (w % 2 ^ nbits))) with
  | .ok (i, _) => some i
  | .error _ => none

namespace Encode

/-- Format NNN of R67: oooo + NNN[11:0]. -/
def addr (op : BitVec 4) (nnn : BitVec 12) : Word := op ++ nnn

/-- Format XNN of R67: oooo + X[3:0] + NN[7:0]. -/
def regByte (op : BitVec 4) (x : Reg) (nn : Byte) : Word := op ++ (BitVec.ofFin x : BitVec 4) ++ nn

/-- Formats XY and XYN of R67: oooo + X[3:0] + Y[3:0] + a last nibble. -/
def regReg (op : BitVec 4) (x y : Reg) (last : BitVec 4) : Word :=
  op ++ (BitVec.ofFin x : BitVec 4) ++ (BitVec.ofFin y : BitVec 4) ++ last

end Encode

/-- The word of an instruction, from the formats of R67 and the patterns of R70. -/
def encode : Instr → Word
  | .cls => 0x00E0
  | .ret => 0x00EE
  | .jp nnn => Encode.addr 0x1 nnn
  | .call nnn => Encode.addr 0x2 nnn
  | .seByte x nn => Encode.regByte 0x3 x nn
  | .sneByte x nn => Encode.regByte 0x4 x nn
  | .seReg x y => Encode.regReg 0x5 x y 0x0
  | .ldByte x nn => Encode.regByte 0x6 x nn
  | .addByte x nn => Encode.regByte 0x7 x nn
  | .ldReg x y => Encode.regReg 0x8 x y 0x0
  | .orReg x y => Encode.regReg 0x8 x y 0x1
  | .andReg x y => Encode.regReg 0x8 x y 0x2
  | .xorReg x y => Encode.regReg 0x8 x y 0x3
  | .addReg x y => Encode.regReg 0x8 x y 0x4
  | .subReg x y => Encode.regReg 0x8 x y 0x5
  | .shr x y => Encode.regReg 0x8 x y 0x6
  | .subn x y => Encode.regReg 0x8 x y 0x7
  | .shl x y => Encode.regReg 0x8 x y 0xE
  | .sneReg x y => Encode.regReg 0x9 x y 0x0
  | .ldI nnn => Encode.addr 0xA nnn
  | .jpV0 nnn => Encode.addr 0xB nnn
  | .rnd x nn => Encode.regByte 0xC x nn
  | .drw x y n => Encode.regReg 0xD x y n
  | .skp x => Encode.regByte 0xE x 0x9E
  | .sknp x => Encode.regByte 0xE x 0xA1
  | .ldVxDt x => Encode.regByte 0xF x 0x07
  | .ldVxKey x => Encode.regByte 0xF x 0x0A
  | .ldDtVx x => Encode.regByte 0xF x 0x15
  | .ldStVx x => Encode.regByte 0xF x 0x18
  | .addI x => Encode.regByte 0xF x 0x1E
  | .ldFont x => Encode.regByte 0xF x 0x29
  | .ldBcd x => Encode.regByte 0xF x 0x33
  | .storeRegs x => Encode.regByte 0xF x 0x55
  | .loadRegs x => Encode.regByte 0xF x 0x65

/-- The two bytes of an instruction as memory holds them (R46). -/
def encodeBytes (i : Instr) : List Byte := bytesOfWord (encode i)

end Sys2Proof
end

