-- ==== Sys2Proof/Config.lean ====
section
/-! DEFINITION. The fixed parameters of the block (spec/00_scope.md R8), the two named parameters a machine
is built with (FONT_TABLE and FONT_WRITABLE), and the free values the spec leaves open. -/

namespace Sys2Proof

/-- The named parameters of spec/00_scope.md R8 that no source fixes. They are fixed for one machine, and every
statement about the model holds for every value of both. -/
structure Config where
  /-- FONT_TABLE: the 80 bytes at 0x000 to 0x04F (spec/10_state.md R38, decision D16). -/
  fontTable : Vector Byte 80
  /-- FONT_WRITABLE: whether an instruction may write below 0x050 (spec/20_memory.md R53, decision D14). -/
  fontWritable : Bool
  deriving DecidableEq, Repr

namespace Config

/-- MEM_SIZE (R8). -/
@[simp] abbrev memSize : Nat := 4096

/-- The first address past the font: FONT_GLYPHS x FONT_GLYPH_BYTES = 80 (R8). -/
@[simp] abbrev fontEnd : Nat := 0x050

/-- PROGRAM_START (R8). -/
@[simp] abbrev programStart : Nat := 0x200

/-- MAX_PROGRAM_LEN = MEM_SIZE - PROGRAM_START (R8). -/
@[simp] abbrev maxProgramLen : Nat := 3584

/-- Glyphs 0 to 7 of the default font (R38). PRESUMED: the spec marks the bytes as general knowledge (log 2). -/
def defaultFontLow : List Byte :=
  [0xF0, 0x90, 0x90, 0x90, 0xF0] ++ [0x20, 0x60, 0x20, 0x20, 0x70] ++
  [0xF0, 0x10, 0xF0, 0x80, 0xF0] ++ [0xF0, 0x10, 0xF0, 0x10, 0xF0] ++
  [0x90, 0x90, 0xF0, 0x10, 0x10] ++ [0xF0, 0x80, 0xF0, 0x10, 0xF0] ++
  [0xF0, 0x80, 0xF0, 0x90, 0xF0] ++ [0xF0, 0x10, 0x20, 0x40, 0x40]

/-- Glyphs 8 to F of the default font (R38). PRESUMED, as above (log 2). -/
def defaultFontHigh : List Byte :=
  [0xF0, 0x90, 0xF0, 0x90, 0xF0] ++ [0xF0, 0x90, 0xF0, 0x10, 0xF0] ++
  [0xF0, 0x90, 0xF0, 0x90, 0x90] ++ [0xE0, 0x90, 0xE0, 0x90, 0xE0] ++
  [0xF0, 0x80, 0x80, 0x80, 0xF0] ++ [0xE0, 0x90, 0x90, 0x90, 0xE0] ++
  [0xF0, 0x80, 0xF0, 0x80, 0xF0] ++ [0xF0, 0x80, 0xF0, 0x80, 0x80]

/-- The spec's defaults: the conventional font (R38) and FONT_WRITABLE = false (R53). -/
def standard : Config where
  fontTable := ⟨(defaultFontLow ++ defaultFontHigh).toArray, by decide⟩
  fontWritable := false

/-- RAND, the random byte of CXNN: a free value under no law (spec/41_alu.md R104, decision D15; log 3).
`rand n` is the value read by the n-th CXNN that runs. No claim may rest on any value of it. -/
opaque rand : Nat → Byte

/-- The text of register_dump: unspecified (spec/60_exceptions.md R157, decision D31; log 9). -/
opaque dumpText : Vector Byte 16 → String

end Config

end Sys2Proof
end

