-- ==== Sys2Proof/Machine/State.lean ====
section
/-! DEFINITION. The state of the Machine (spec/10_state.md R20), the reasons a step can stop, and the state after
construct and reset (R42). -/

namespace Sys2Proof.Machine

/-- The 64 x 32 grid of boolean pixels, addressed row-major: `fb[y][x]` (spec/10_state.md R33). -/
abbrev Framebuffer := Vector (Vector Bool 64) 32

/-- The framebuffer with every pixel false (R33). -/
def Framebuffer.clear : Framebuffer := Vector.replicate 32 (Vector.replicate 64 false)

/-- The Machine. The first ten fields are R20's elements, "exactly the elements of the table"; the last two are the
model's own: the block's parameters (log 1) and the count of random bytes read so far (log 3). -/
structure State where
  /-- Memory in canonical form: the listed cells differ from what an unlisted address reads as (R35, R42; log 4). -/
  mem : List Host.Cell
  /-- V0 to VF (R21). -/
  regs : Vector Byte 16
  /-- The index register I (R24). -/
  index : Word
  /-- The program counter (R25). -/
  pc : Word
  /-- The call stack's 16 entries, a storage of its own (R28). -/
  stack : Vector Word 16
  /-- The number of stack entries in use, 0 to 16 (R28). -/
  sp : Fin 17
  /-- The delay timer (R31). -/
  dt : Byte
  /-- The sound timer (R32). -/
  st : Byte
  /-- The framebuffer (R33). -/
  fb : Framebuffer
  /-- The keypad: key k is pressed (R34). -/
  keys : Vector Bool 16
  /-- MODEL's own: FONT_TABLE and FONT_WRITABLE, fixed for a machine (spec/00_scope.md R8; log 1). -/
  config : Config
  /-- MODEL's own: how many random bytes have been read; the next one is `Config.rand draws` (R41; log 3). -/
  draws : Nat
  deriving DecidableEq, Repr

/-- The kind of access a bound check covers (spec/60_exceptions.md R131). -/
inductive AccessKind where
  | fetch
  | read
  | write
  deriving DecidableEq, Repr

/-- Why a step ends in a fault (spec/60_exceptions.md R131). Each is the spec's own; the outcome carries no state,
because a fault leaves the state exactly as it was before the step (R129). -/
inductive Fault where
  /-- Raised by `step` when the fetched word decodes to no instruction (R132). Safe: the spec's own fault. -/
  | unknownInstruction (w : Word)
  /-- Raised by the bound check of fetch, DXYN, FX33, FX55 and FX65 with the lowest address at or above 4096 (R133).
  Safe: the spec's own fault. -/
  | memoryOutOfBounds (a : Nat) (kind : AccessKind)
  /-- Raised by 2NNN with sp = 16, with the address of the call (R134). Safe: the spec's own fault. -/
  | stackOverflow (a : Word)
  /-- Raised by 00EE with sp = 0, with the address of the return (R134). Safe: the spec's own fault. -/
  | stackUnderflow (a : Word)
  /-- Raised by EX9E and EXA1 when VX is 16 or more, with VX (R135). Safe: the spec's own fault. -/
  | keyIndexOutOfRange (v : Byte)
  /-- Raised by FX33 and FX55 when FONT_WRITABLE is false, with the lowest written address below 0x050 (R136).
  Safe: the spec's own fault. -/
  | fontWrite (a : Nat)
  deriving DecidableEq, Repr

/-- Why an instruction has no meaning here. -/
inductive Refusal where
  /-- Raised by `exec` alone, for an instruction without a meaning; no arm of exec raises it now. Safe: the run stops. -/
  | notModelled (mnemonic : String)
  deriving DecidableEq, Repr

/-- The three outcomes of a step of this machine. -/
abbrev Result := Host.Outcome State Fault Refusal

/-- The state after construct with the given parameters (R42, spec/70_reset_and_hazards.md R161): memory lists nothing,
so that it reads as the font below 0x050 and as zero elsewhere; pc is 0x200; everything else is zero or false. -/
def State.construct (c : Config) : State where
  mem := []
  regs := Vector.replicate 16 0
  index := 0
  pc := 0x200
  stack := Vector.replicate 16 0
  sp := 0
  dt := 0
  st := 0
  fb := Framebuffer.clear
  keys := Vector.replicate 16 false
  config := c
  draws := 0

/-- The machine right after construct, with the spec's default parameters (R42, R38, spec/20_memory.md R53). -/
def State.reset : State := State.construct Config.standard

end Sys2Proof.Machine
end

