-- ==== Sys2Proof/Machine/Ops.lean ====
section
/-! DEFINITION. The named operations over memory, registers, the stack and the random source that every meaning uses,
and the one way a step faults. -/

namespace Sys2Proof.Machine

/-! ## Faulting

The CORE has no trap mechanism: no vector, no saved pc, no mode change (spec/60_exceptions.md R138) and no return from a
trap (R139). A fault does only this: the step's outcome reports it, and the state is the one before the step (R129). -/

/-- `raise F(info)` (spec/00_scope.md R13): end the step with the fault; nothing is written. -/
def raise (f : Fault) : Result := .fault f

/-- The cause code of a fault (R131). -/
def Fault.code : Fault → Nat
  | .unknownInstruction _ => 1
  | .memoryOutOfBounds _ _ => 2
  | .stackOverflow _ => 3
  | .stackUnderflow _ => 4
  | .keyIndexOutOfRange _ => 5
  | .fontWrite _ => 6

/-! ## Memory as canonical data -/

/-- What an address that is not listed reads as: the reset contents, FONT_TABLE at 0x000 to 0x04F and 0 elsewhere
(spec/10_state.md R36, R42). -/
def Memory.unlisted (c : Config) (a : Nat) : Byte :=
  if h : a < 80 then c.fontTable[a] else 0

/-- The byte at an address. -/
def Memory.read (c : Config) : List Host.Cell → Nat → Byte
  | [], a => Memory.unlisted c a
  | (k, v) :: rest, a => if k = a then v else Memory.read c rest a

/-- The cells without any at address a. -/
def Memory.erase (a : Nat) (m : List Host.Cell) : List Host.Cell := m.filter fun p => p.1 != a

/-- Put a cell before the first one at a higher address. -/
def Memory.place (a : Nat) (v : Byte) : List Host.Cell → List Host.Cell
  | [] => [(a, v)]
  | (k, b) :: rest => if a < k then (a, v) :: (k, b) :: rest else (k, b) :: Memory.place a v rest

/-- Write one byte, keeping the canonical form: a byte equal to what the address reads as unlisted is not listed. -/
def Memory.write (c : Config) (a : Nat) (v : Byte) (m : List Host.Cell) : List Host.Cell :=
  if v = Memory.unlisted c a then Memory.erase a m else Memory.place a v (Memory.erase a m)

/-- The canonical form: addresses strictly rising, every one inside the address space, and no cell equal to what its
address reads as unlisted. -/
abbrev Memory.wf (c : Config) (m : List Host.Cell) : Prop :=
  m.Pairwise (fun p q => p.1 < q.1) ∧ ∀ p ∈ m, p.1 < Config.memSize ∧ p.2 ≠ Memory.unlisted c p.1

/-- `mem[a]` (spec/00_scope.md R11). -/
def State.readByte (s : State) (a : Nat) : Byte := Memory.read s.config s.mem a

/-- `mem[a] <- v`, one byte, with no check: callers check first (R12). -/
def State.writeByte (s : State) (a : Nat) (v : Byte) : State :=
  { s with mem := Memory.write s.config a v s.mem }

/-- The bytes at n consecutive addresses from a. -/
def State.readBytes (s : State) (a n : Nat) : List Byte := (List.range n).map fun k => s.readByte (a + k)

/-- Write bytes at consecutive ascending addresses from a (spec/20_memory.md R47, R59). -/
def State.writeBytes (s : State) (a : Nat) : List Byte → State
  | [] => s
  | v :: rest => (s.writeByte a v).writeBytes (a + 1) rest

/-- The addresses an access of n bytes at a touches, computed exactly, with no wrap (R12, spec/20_memory.md R50). -/
def accessed (a n : Nat) : List Nat := (List.range n).map (a + ·)

/-- The lowest accessed address that is outside memory, if any (R50). -/
def outOfBounds (a n : Nat) : Option Nat := (accessed a n).find? fun b => decide (Config.memSize ≤ b)

/-- The lowest written address in the font region, if an instruction may not write there (spec/20_memory.md R53). -/
def fontHit (c : Config) (a n : Nat) : Option Nat :=
  if c.fontWritable then none else (accessed a n).find? fun b => decide (b < Config.fontEnd)

/-- `MemRead(a, n)` (R12): the n bytes in ascending order, or MemoryOutOfBounds of the lowest bad address. -/
def memRead (kind : AccessKind) (s : State) (a n : Nat) : Except Fault (List Byte) :=
  match outOfBounds a n with
  | some b => .error (.memoryOutOfBounds b kind)
  | none => .ok (s.readBytes a n)

/-- `MemWrite(a, n, v)` (R12) with every address checked before any byte is written (spec/60_exceptions.md R129, R137). -/
def memWrite (s : State) (a : Nat) (bytes : List Byte) : Except Fault State :=
  match outOfBounds a bytes.length with
  | some b => .error (.memoryOutOfBounds b .write)
  | none =>
    match fontHit s.config a bytes.length with
    | some b => .error (.fontWrite b)
    | none => .ok (s.writeBytes a bytes)

/-! ## Registers -/

/-- `x[i]` (R11). No register is hard-wired (spec/10_state.md R21). -/
def State.reg (s : State) (i : Reg) : Byte := s.regs[i]

/-- `x[i] <- v` (R11). -/
def State.setReg (s : State) (i : Reg) (v : Byte) : State := { s with regs := s.regs.set i v }

/-- V0 to VX in ascending order (spec/10_state.md R23). -/
def State.regsUpTo (s : State) (x : Reg) : List Byte := (s.regs.toList).take (x.val + 1)

/-- Write bytes to consecutive ascending registers from number k; a byte past VF has no register. -/
def State.setRegsFrom (s : State) (k : Nat) : List Byte → State
  | [] => s
  | v :: rest => (if h : k < 16 then s.setReg ⟨k, h⟩ v else s).setRegsFrom (k + 1) rest

/-- Write the result to VX, then the flag to VF: with X = 0xF the flag wins (spec/41_alu.md R92). -/
def State.setRegThenFlag (s : State) (x : Reg) (result flag : Byte) : State :=
  (s.setReg x result).setReg Reg.vf flag

/-! ## Program counter -/

/-- The address A of the executing instruction: pc - 2 after fetch (spec/00_scope.md R16). -/
def State.instrAddr (s : State) : Word := s.pc - 2

/-- `pc <- target` (R13). -/
def State.jump (s : State) (target : Word) : State := { s with pc := target }

/-- Skip the next 2-byte word when the condition holds (spec/30_encoding.md R78). -/
def State.skipIf (s : State) (cond : Bool) : State := if cond then s.jump (s.pc + 2) else s

/-! ## Call stack -/

/-- Push (spec/10_state.md R29): fault at sp = 16, else write stack[sp] and increment sp. -/
def push (s : State) (v : Word) : Except Fault State :=
  if h : s.sp.val < 16 then
    .ok { s with stack := s.stack.set s.sp.val v, sp := ⟨s.sp.val + 1, by omega⟩ }
  else .error (.stackOverflow s.instrAddr)

/-- Pop (R29): fault at sp = 0, else decrement sp and answer stack[sp]; the entry is not cleared (R30). -/
def pop (s : State) : Except Fault (Word × State) :=
  if h : 0 < s.sp.val then
    .ok (s.stack[s.sp.val - 1], { s with sp := ⟨s.sp.val - 1, by omega⟩ })
  else .error (.stackUnderflow s.instrAddr)

/-! ## Random source -/

/-- RAND: the next free byte, and the state that has read it (spec/10_state.md R41; log 3). -/
def drawRand (s : State) : Byte × State := (Config.rand s.draws, { s with draws := s.draws + 1 })

/-! ## Fetch -/

/-- The big-endian word at an address: the byte at the lower address supplies bits 15:8 (spec/20_memory.md R46). -/
def State.wordAt (s : State) (a : Nat) : Word := wordOfBytes (s.readByte a) (s.readByte (a + 1))

/-- Fetch (spec/30_encoding.md R63): the bound check of pc and pc + 1, then the word there and the state with pc
advanced by 2. -/
def fetch (s : State) : Except Fault (Word × State) :=
  match outOfBounds s.pc.toNat 2 with
  | some b => .error (.memoryOutOfBounds b .fetch)
  | none => .ok (s.wordAt s.pc.toNat, s.jump (s.pc + 2))

end Sys2Proof.Machine
end

