-- ==== Sys2Proof/Machine/Flags.lean ====
section
/-! DEFINITION. The flag outputs, every one a value written to VF (spec/10_state.md R22, spec/41_alu.md R91). -/

namespace Sys2Proof.Machine

/-- A flag as the byte VF holds: 1 or 0. -/
def flagByte (b : Bool) : Byte := if b then 1 else 0

/-- Carry out of bit 7 of an 8-bit add without carry-in (spec/41_alu.md R99). -/
def carryFlag (a b : Byte) : Byte := flagByte (decide (a.toNat + b.toNat > 255))

/-- NOT borrow of a - b: 1 when a is at least b (R100, R102). -/
def notBorrowFlag (a b : Byte) : Byte := flagByte (decide (a.toNat ≥ b.toNat))

/-- The bit a right shift drops: bit 0 (R101). -/
def droppedLow (v : Byte) : Byte := flagByte (v.getLsbD 0)

/-- The bit a left shift drops: bit 7 (R103). -/
def droppedHigh (v : Byte) : Byte := flagByte (v.getLsbD 7)

/-- The collision flag of one whole draw (spec/43_display.md R117). -/
def collisionFlag (hit : Bool) : Byte := flagByte hit

end Sys2Proof.Machine
end

