-- ==== Sys2Proof/Machine/Operands.lean ====
section
/-! DEFINITION. The operand forms of spec/30_encoding.md R69: immediates widened to addresses, V0 + NNN, I as a memory
address, a register as a key index, as a glyph number, as BCD digits and as a sprite coordinate. -/

namespace Sys2Proof.Machine

/-- NNN widened to the 16 bits of pc or I, unsigned (spec/30_encoding.md R68). -/
def addrOf (nnn : BitVec 12) : Word := nnn.setWidth 16

/-- V0 + NNN, whatever bits 11:8 hold (spec/40_control_flow.md R84). -/
def v0Target (s : State) (nnn : BitVec 12) : Word := (s.reg Reg.v0).setWidth 16 + addrOf nnn

/-- I as the exact base address of a memory access (spec/42_index_memory.md R111); I itself is not clamped. -/
def State.indexAddr (s : State) : Nat := s.index.toNat

/-- A register's value as a key index: 16 or more faults (spec/44_keys_timers.md R122). -/
def keyIndex (v : Byte) : Except Fault (Fin 16) :=
  if h : v.toNat < 16 then .ok ⟨v.toNat, h⟩ else .error (.keyIndexOutOfRange v)

/-- The lowest pressed key, scanning low to high (spec/44_keys_timers.md R124). -/
def State.firstPressed (s : State) : Option (Fin 16) := (List.finRange 16).find? fun k => s.keys[k]

/-- VX x 5 with the full 8-bit VX, not masked to a digit (spec/42_index_memory.md R107). -/
def glyphAddr (v : Byte) : Word := v.setWidth 16 * 5

/-- Hundreds, tens and ones of a byte, in the order FX33 writes them (spec/42_index_memory.md R108). -/
def bcdDigits (v : Byte) : List Byte :=
  [BitVec.ofNat 8 (v.toNat / 100), BitVec.ofNat 8 (v.toNat / 10 % 10), BitVec.ofNat 8 (v.toNat % 10)]

/-- The column of sprite offset c, wrapped (spec/43_display.md R116). -/
def pixelColumn (vx : Byte) (c : Nat) : Fin 64 := ⟨(vx.toNat + c) % 64, Nat.mod_lt _ (by decide)⟩

/-- The row of sprite offset r, wrapped (R116). -/
def pixelRow (vy : Byte) (r : Nat) : Fin 32 := ⟨(vy.toNat + r) % 32, Nat.mod_lt _ (by decide)⟩

/-- The sprite bit at column offset c of a row byte: bit 7 is the leftmost (R115). -/
def spriteBit (b : Byte) (c : Nat) : Bool := b.getLsbD (7 - c)

end Sys2Proof.Machine
end

