-- ==== Sys2Proof/Machine/Alu.lean ====
section
/-! DEFINITION. Register loads, the ALU and the random byte (spec/41_alu.md). Byte arithmetic is modulo 256 (R91); a
flag-writing instruction reads its operands, writes VX, then writes VF (R92). -/

namespace Sys2Proof.Machine

/-- 6XNN (R93). -/
def execLdByte (x : Reg) (nn : Byte) (s : State) : Result := .next (s.setReg x nn)

/-- 7XNN, no flag (R94). -/
def execAddByte (x : Reg) (nn : Byte) (s : State) : Result := .next (s.setReg x (s.reg x + nn))

/-- 8XY0 (R95). -/
def execLdReg (x y : Reg) (s : State) : Result := .next (s.setReg x (s.reg y))

/-- 8XY1, no flag (R96). -/
def execOrReg (x y : Reg) (s : State) : Result := .next (s.setReg x (s.reg x ||| s.reg y))

/-- 8XY2, no flag (R97). -/
def execAndReg (x y : Reg) (s : State) : Result := .next (s.setReg x (s.reg x &&& s.reg y))

/-- 8XY3, no flag (R98). -/
def execXorReg (x y : Reg) (s : State) : Result := .next (s.setReg x (s.reg x ^^^ s.reg y))

/-- 8XY4: add, VF gets the carry (R99). -/
def execAddReg (x y : Reg) (s : State) : Result :=
  .next (s.setRegThenFlag x (s.reg x + s.reg y) (carryFlag (s.reg x) (s.reg y)))

/-- 8XY5: VX - VY, VF gets NOT borrow (R100). -/
def execSubReg (x y : Reg) (s : State) : Result :=
  .next (s.setRegThenFlag x (s.reg x - s.reg y) (notBorrowFlag (s.reg x) (s.reg y)))

/-- 8XY6: VX shifted right by one, VF gets the dropped bit; VY is not read (R101). -/
def execShr (x _y : Reg) (s : State) : Result :=
  .next (s.setRegThenFlag x (s.reg x >>> 1) (droppedLow (s.reg x)))

/-- 8XY7: VY - VX into VX, VF gets NOT borrow (R102). -/
def execSubn (x y : Reg) (s : State) : Result :=
  .next (s.setRegThenFlag x (s.reg y - s.reg x) (notBorrowFlag (s.reg y) (s.reg x)))

/-- 8XYE: VX shifted left by one, VF gets the dropped bit; VY is not read (R103). -/
def execShl (x _y : Reg) (s : State) : Result :=
  .next (s.setRegThenFlag x (s.reg x <<< 1) (droppedHigh (s.reg x)))

/-- CXNN for a given random byte: the spec's step takes RAND as an input (spec/30_encoding.md R65). -/
def rndWith (rand : Byte) (x : Reg) (nn : Byte) (s : State) : State := s.setReg x (rand &&& nn)

/-- CXNN: RAND AND NN, RAND being the free value of this draw (R104; log 3). -/
def execRnd (x : Reg) (nn : Byte) (s : State) : Result :=
  .next (rndWith (drawRand s).1 x nn (drawRand s).2)

end Sys2Proof.Machine
end

