-- ==== Sys2Proof/Machine/Control.lean ====
section
/-! DEFINITION. Control transfer (spec/40_control_flow.md). Each meaning runs after fetch, so pc already holds the
instruction's address plus 2 (spec/00_scope.md R16). -/

namespace Sys2Proof.Machine

/-- 00EE: pop the return address into pc (R81). -/
def execRet (s : State) : Result :=
  match pop s with
  | .ok (target, t) => .next (t.jump target)
  | .error f => raise f

/-- 1NNN (R82). -/
def execJp (nnn : BitVec 12) (s : State) : Result := .next (s.jump (addrOf nnn))

/-- 2NNN: push pc, the address of the instruction following the call, and jump (R83). -/
def execCall (nnn : BitVec 12) (s : State) : Result :=
  match push s s.pc with
  | .ok t => .next (t.jump (addrOf nnn))
  | .error f => raise f

/-- BNNN (R84). -/
def execJpV0 (nnn : BitVec 12) (s : State) : Result := .next (s.jump (v0Target s nnn))

/-- 3XNN (R85). -/
def execSeByte (x : Reg) (nn : Byte) (s : State) : Result := .next (s.skipIf (s.reg x == nn))

/-- 4XNN (R86). -/
def execSneByte (x : Reg) (nn : Byte) (s : State) : Result := .next (s.skipIf (s.reg x != nn))

/-- 5XY0 (R87). -/
def execSeReg (x y : Reg) (s : State) : Result := .next (s.skipIf (s.reg x == s.reg y))

/-- 9XY0 (R88). -/
def execSneReg (x y : Reg) (s : State) : Result := .next (s.skipIf (s.reg x != s.reg y))

end Sys2Proof.Machine
end

