-- ==== Sys2Proof/Machine/Display.lean ====
section
/-! DEFINITION. The display instructions (spec/43_display.md): clear, and the XOR sprite engine with collision. -/

namespace Sys2Proof.Machine

/-- `fb[y][x]` (spec/10_state.md R33). -/
def State.pixel (s : State) (y : Fin 32) (x : Fin 64) : Bool := s.fb[y][x]

/-- A draw in progress: the framebuffer so far and whether a pixel has been turned off. -/
structure Drawing where
  fb : Framebuffer
  hit : Bool
  deriving DecidableEq, Repr

/-- XOR a set sprite bit into one pixel; turning a true pixel off is a collision (R114, R117). -/
def xorPixel (d : Drawing) (y : Fin 32) (x : Fin 64) : Drawing :=
  { fb := d.fb.set y (d.fb[y].set x (!d.fb[y][x])), hit := d.hit || d.fb[y][x] }

/-- The bit at column offset c of row r: only a set bit touches a pixel (R114). -/
def drawBit (vx vy b : Byte) (r : Nat) (d : Drawing) (c : Nat) : Drawing :=
  if spriteBit b c then xorPixel d (pixelRow vy r) (pixelColumn vx c) else d

/-- One sprite row: the eight column offsets 0 to 7 of byte b at row offset r (R114). -/
def drawRow (vx vy b : Byte) (r : Nat) (d : Drawing) : Drawing := (List.range 8).foldl (drawBit vx vy b r) d

/-- The rows of a sprite from row offset r on, top to bottom (R114). -/
def drawRows (vx vy : Byte) : Nat → List Byte → Drawing → Drawing
  | _, [], d => d
  | r, b :: rest, d => drawRows vx vy (r + 1) rest (drawRow vx vy b r d)

/-- Draw sprite bytes at (VX, VY): the new framebuffer, then VF gets the collision flag, always (R114). -/
def State.drawSprite (s : State) (x y : Reg) (bytes : List Byte) : State :=
  let d := drawRows (s.reg x) (s.reg y) 0 bytes { fb := s.fb, hit := false }
  { s with fb := d.fb }.setReg Reg.vf (collisionFlag d.hit)

/-- 00E0: clear the framebuffer; VF is unchanged (R113). -/
def execCls (s : State) : Result := .next { s with fb := Framebuffer.clear }

/-- DXYN: draw the N bytes at I (R114); N = 0 reads nothing and cannot fault (R118). -/
def execDrw (x y : Reg) (n : BitVec 4) (s : State) : Result :=
  match memRead .read s s.indexAddr n.toNat with
  | .ok bytes => .next (s.drawSprite x y bytes)
  | .error f => raise f

end Sys2Proof.Machine
end

