-- ==== Sys2Proof/Machine/IndexMemory.lean ====
section
/-! DEFINITION. The index register and the memory transfers (spec/42_index_memory.md). I is never changed by an access
(R111). -/

namespace Sys2Proof.Machine

/-- ANNN (R105). -/
def execLdI (nnn : BitVec 12) (s : State) : Result := .next { s with index := addrOf nnn }

/-- FX1E: I + VX modulo 2^16, no flag (R106). -/
def execAddI (x : Reg) (s : State) : Result := .next { s with index := s.index + (s.reg x).setWidth 16 }

/-- FX29 (R107). -/
def execLdFont (x : Reg) (s : State) : Result := .next { s with index := glyphAddr (s.reg x) }

/-- FX33: the three BCD digits of VX to I, I + 1, I + 2 (R108). -/
def execLdBcd (x : Reg) (s : State) : Result :=
  match memWrite s s.indexAddr (bcdDigits (s.reg x)) with
  | .ok t => .next t
  | .error f => raise f

/-- FX55: V0 to VX to memory from I (R109). -/
def execStoreRegs (x : Reg) (s : State) : Result :=
  match memWrite s s.indexAddr (s.regsUpTo x) with
  | .ok t => .next t
  | .error f => raise f

/-- FX65: V0 to VX from memory at I (R110). -/
def execLoadRegs (x : Reg) (s : State) : Result :=
  match memRead .read s s.indexAddr (x.val + 1) with
  | .ok bytes => .next (s.setRegsFrom 0 bytes)
  | .error f => raise f

end Sys2Proof.Machine
end

