-- ==== Sys2Proof/Machine/KeysTimers.lean ====
section
/-! DEFINITION. The keypad and timer instructions (spec/44_keys_timers.md). No instruction ticks a timer (R127). -/

namespace Sys2Proof.Machine

/-- EX9E: skip if key VX is pressed (R120). -/
def execSkp (x : Reg) (s : State) : Result :=
  match keyIndex (s.reg x) with
  | .ok k => .next (s.skipIf s.keys[k])
  | .error f => raise f

/-- EXA1: skip if key VX is not pressed (R121). -/
def execSknp (x : Reg) (s : State) : Result :=
  match keyIndex (s.reg x) with
  | .ok k => .next (s.skipIf (!s.keys[k]))
  | .error f => raise f

/-- FX07 (R123). -/
def execLdVxDt (x : Reg) (s : State) : Result := .next (s.setReg x s.dt)

/-- FX0A: the lowest pressed key's index to VX, or pc back by 2 so that the next step retries (R124). -/
def execLdVxKey (x : Reg) (s : State) : Result :=
  match s.firstPressed with
  | some k => .next (s.setReg x (BitVec.ofNat 8 k.val))
  | none => .next (s.jump (s.pc - 2))

/-- FX15 (R125). -/
def execLdDtVx (x : Reg) (s : State) : Result := .next { s with dt := s.reg x }

/-- FX18 (R126). -/
def execLdStVx (x : Reg) (s : State) : Result := .next { s with st := s.reg x }

end Sys2Proof.Machine
end

