-- ==== Sys2Proof/Machine/Step.lean ====
section
/-! DEFINITION. The step (spec/30_encoding.md R65), and the placing of one word where the next step fetches it. -/

namespace Sys2Proof.Machine

/-- One fetch-decode-execute cycle (R65): fetch, decode, and execute the decoded instruction on the state with pc
advanced; an unknown word faults. On every fault the state is the one before the step (spec/60_exceptions.md R129). -/
def step (s : State) : Host.Outcome State Fault Refusal :=
  match fetch s with
  | .error f => raise f
  | .ok (w, t) =>
    match decode w with
    | .unknown u => raise (.unknownInstruction u)
    | .known i => exec i t

/-- The state with one instruction word stored at pc and pc + 1, where the next step fetches it; the word's bits are
numbered as spec/opcode_table.json numbers them. A pc with no room for a word has no such place: nothing changes (log 5). -/
def State.withFetchWord (s : State) (nbits w : Nat) : State :=
  match outOfBounds s.pc.toNat 2 with
  | some _ => s
  | none => s.writeBytes s.pc.toNat (bytesOfWord (BitVec.ofNat 16 (w % 2 ^ nbits)))

end Sys2Proof.Machine
end

