-- ==== Sys2Proof/Machine/Environment.lean ====
section
/-! DEFINITION. The host interface (spec/60_exceptions.md R150): the operations a host performs on the Machine, each one
atomic transaction on the whole state (spec/20_memory.md R62), and runs of any sequence of them (R144, R158). -/

namespace Sys2Proof.Machine

/-- Why a host operation is rejected; the state is then unchanged (R131 codes 16 and 17). -/
inductive HostError where
  /-- load_program with more than 3584 bytes, with the length (R152). Safe: the spec's own error. -/
  | loadOverflow (len : Nat)
  /-- set_key with an index of 16 or more, with the index (R155). Safe: the spec's own error. -/
  | setKeyOutOfRange (index : Nat)
  deriving DecidableEq, Repr

/-- The cause code of a host operation's error (R131). -/
def HostError.code : HostError → Nat
  | .loadOverflow _ => 16
  | .setKeyOutOfRange _ => 17

/-- A full value copy of the Machine: every element of R20, stale stack entries and keypad included, with the parameters
its memory is read under; the random source is not in it (spec/10_state.md R43, decision D24). -/
structure Snapshot where
  mem : List Host.Cell
  regs : Vector Byte 16
  index : Word
  pc : Word
  stack : Vector Word 16
  sp : Fin 17
  dt : Byte
  st : Byte
  fb : Framebuffer
  keys : Vector Bool 16
  config : Config
  deriving DecidableEq, Repr

/-- snapshot (R156). -/
def State.snapshot (s : State) : Snapshot where
  mem := s.mem
  regs := s.regs
  index := s.index
  pc := s.pc
  stack := s.stack
  sp := s.sp
  dt := s.dt
  st := s.st
  fb := s.fb
  keys := s.keys
  config := s.config

/-- restore (R156): the entire state is replaced by the copy; the random source goes on (log 3). -/
def State.restore (s : State) (c : Snapshot) : State where
  mem := c.mem
  regs := c.regs
  index := c.index
  pc := c.pc
  stack := c.stack
  sp := c.sp
  dt := c.dt
  st := c.st
  fb := c.fb
  keys := c.keys
  config := c.config
  draws := s.draws

/-- reset: identical to construct, discarding any loaded program (spec/70_reset_and_hazards.md R162); the parameters are
the machine's own, and the random source, which is outside the state, goes on (log 3). -/
def State.hostReset (s : State) : State := { State.construct s.config with draws := s.draws }

/-- load_program (R152): copy the bytes to 0x200 and on, or reject an image that is too large; nothing else changes. -/
def loadProgram (s : State) (image : List Byte) : Except HostError State :=
  if Config.maxProgramLen < image.length then .error (.loadOverflow image.length)
  else .ok (s.writeBytes Config.programStart image)

/-- One timer's tick: down by 1, floored at 0 (R143). -/
def tickOne (t : Byte) : Byte := if 0 < t.toNat then t - 1 else t

/-- tick_timers (R143, R154). -/
def State.tickTimers (s : State) : State := { s with dt := tickOne s.dt, st := tickOne s.st }

/-- set_key (R155): the only writer of the keypad. -/
def setKey (s : State) (index : Nat) (pressed : Bool) : Except HostError State :=
  if h : index < 16 then .ok { s with keys := s.keys.set index pressed } else .error (.setKeyOutOfRange index)

/-- sound_active (R146): the tone sounds while st is not 0. -/
def State.soundActive (s : State) : Bool := s.st != 0

/-- The operations of R150 on a Machine that `construct` has created (`State.construct`). -/
inductive HostOp where
  | reset
  | loadProgram (image : List Byte)
  | step
  | tickTimers
  | setKey (index : Nat) (pressed : Bool)
  | framebuffer
  | soundActive
  | snapshot
  | restore (copy : Snapshot)
  | registerDump
  deriving DecidableEq, Repr

/-- What an operation returns to the host. -/
inductive Reply where
  /-- The operation was done and returns nothing. -/
  | ok
  /-- `Fault(cause, info)` of a step (R130). -/
  | fault (f : Fault)
  /-- The model has no meaning for the instruction; no instruction gives this. -/
  | refused (r : Refusal)
  /-- The operation was rejected. -/
  | error (e : HostError)
  /-- The framebuffer, row-major (R151). -/
  | grid (fb : Framebuffer)
  /-- sound_active's answer (R146). -/
  | sound (active : Bool)
  /-- snapshot's copy (R156). -/
  | copy (c : Snapshot)
  /-- register_dump's text, of unspecified format (R157; log 9). -/
  | text (t : String)
  deriving DecidableEq, Repr

/-- step as the host sees it (R153): its outcome, and on a fault the state as it was before (R129). -/
def performStep (s : State) : Reply × State :=
  match step s with
  | .next t => (.ok, t)
  | .fault f => (.fault f, s)
  | .refused r => (.refused r, s)

/-- An operation that is done or rejected; rejected, it changes nothing. -/
def performChecked (s : State) (r : Except HostError State) : Reply × State :=
  match r with
  | .ok t => (.ok, t)
  | .error e => (.error e, s)

/-- One host operation: what it returns and the state it leaves (R150). -/
def perform (op : HostOp) (s : State) : Reply × State :=
  match op with
  | .reset => (.ok, s.hostReset)
  | .loadProgram image => performChecked s (loadProgram s image)
  | .step => performStep s
  | .tickTimers => (.ok, s.tickTimers)
  | .setKey index pressed => performChecked s (setKey s index pressed)
  | .framebuffer => (.grid s.fb, s)
  | .soundActive => (.sound s.soundActive, s)
  | .snapshot => (.copy s.snapshot, s)
  | .restore c => (.ok, s.restore c)
  | .registerDump => (.text (Config.dumpText s.regs), s)

/-- Any sequence of host operations, in the order the host chooses (R150, R158): the replies and the last state. -/
def performAll : List HostOp → State → List Reply × State
  | [], s => ([], s)
  | op :: rest, s => ((perform op s).1 :: (performAll rest (perform op s).2).1, (performAll rest (perform op s).2).2)

end Sys2Proof.Machine
end

