-- ==== Sys2Proof/Safety.lean ====
section
/-! DEFINITION. The words statements use: what a step runs, what it keeps, the invariants of the state, and the two ends
of a run (spec/70_reset_and_hazards.md R173). -/

namespace Sys2Proof.Machine

/-! ## What the next step runs -/

/-- The next step fetches inside memory and its word decodes to i (spec/30_encoding.md R63, R64). -/
def Runs (s : State) (i : Instr) : Prop :=
  s.pc.toNat + 1 < 4096 ∧ decode (s.wordAt s.pc.toNat) = .known i

/-! ## Frames -/

/-- The parts of the state a frame speaks of. -/
inductive Part where
  | mem
  | regs
  | index
  | pc
  | stack
  | sp
  | dt
  | st
  | fb
  | keys
  | config
  | draws
  deriving DecidableEq, Repr

/-- The part is the same in both states; memory is compared byte by byte, through the read of one byte. -/
def Keeps (s t : State) : Part → Prop
  | .mem => ∀ a, t.readByte a = s.readByte a
  | .regs => ∀ r, t.reg r = s.reg r
  | .index => t.index = s.index
  | .pc => t.pc = s.pc
  | .stack => t.stack = s.stack
  | .sp => t.sp = s.sp
  | .dt => t.dt = s.dt
  | .st => t.st = s.st
  | .fb => t.fb = s.fb
  | .keys => t.keys = s.keys
  | .config => t.config = s.config
  | .draws => t.draws = s.draws

/-- Every part but the listed ones is the same. -/
def KeepsAllBut (changed : List Part) (s t : State) : Prop := ∀ p, p ∉ changed → Keeps s t p

/-- Nothing changes but the listed registers. -/
def WritesOnlyRegs (rs : List Reg) (s t : State) : Prop :=
  (∀ r, r ∉ rs → t.reg r = s.reg r) ∧ KeepsAllBut [.regs] s t

/-- Nothing changes but the n bytes of memory from a. -/
def WritesOnlyBytes (a n : Nat) (s t : State) : Prop :=
  (∀ b, b < a ∨ a + n ≤ b → t.readByte b = s.readByte b) ∧ KeepsAllBut [.mem] s t

/-! ## Who may write VF -/

/-- The instructions of spec/10_state.md R22 that may write VF: the flag writers, and those whose destination is VF. -/
def mayWriteVf : Instr → Bool
  | .addReg _ _ | .subReg _ _ | .shr _ _ | .subn _ _ | .shl _ _ | .drw _ _ _ => true
  | .ldByte x _ | .addByte x _ | .ldReg x _ | .orReg x _ | .andReg x _ | .xorReg x _ => x == Reg.vf
  | .rnd x _ | .ldVxDt x | .ldVxKey x | .loadRegs x => x == Reg.vf
  | .cls | .ret | .jp _ | .call _ | .seByte _ _ | .sneByte _ _ | .seReg _ _ | .sneReg _ _ => false
  | .ldI _ | .jpV0 _ | .skp _ | .sknp _ | .ldDtVx _ | .ldStVx _ => false
  | .addI _ | .ldFont _ | .ldBcd _ | .storeRegs _ => false

/-- The instructions of spec/10_state.md R26 that may leave pc elsewhere than at their address plus 2. -/
def mayMovePc : Instr → Bool
  | .ret | .jp _ | .call _ | .jpV0 _ => true
  | .seByte _ _ | .sneByte _ _ | .seReg _ _ | .sneReg _ _ | .skp _ | .sknp _ | .ldVxKey _ => true
  | .cls | .ldByte _ _ | .addByte _ _ | .ldReg _ _ | .orReg _ _ | .andReg _ _ | .xorReg _ _ => false
  | .addReg _ _ | .subReg _ _ | .shr _ _ | .subn _ _ | .shl _ _ | .ldI _ | .rnd _ _ | .drw _ _ _ => false
  | .ldVxDt _ | .ldDtVx _ | .ldStVx _ | .addI _ | .ldFont _ | .ldBcd _ | .storeRegs _ | .loadRegs _ => false

/-! ## Sprites -/

/-- A set bit of the n-row sprite at I, drawn at (VX, VY), lands on pixel (py, px) (spec/43_display.md R114 to R116). -/
def SpriteCovers (s : State) (x y : Reg) (n : Nat) (py : Fin 32) (px : Fin 64) : Prop :=
  ∃ r c, r < n ∧ c < 8 ∧ (s.readByte (s.index.toNat + r)).getLsbD (7 - c) = true ∧
    px.val = ((s.reg x).toNat + c) % 64 ∧ py.val = ((s.reg y).toNat + r) % 32

/-- Some set bit of the sprite lands on a pixel that is on (R117). -/
def SpriteHits (s : State) (x y : Reg) (n : Nat) : Prop :=
  ∃ py px, SpriteCovers s x y n py px ∧ s.pixel py px = true

/-! ## Invariants -/

/-- With FONT_WRITABLE false, the font region holds FONT_TABLE (spec/10_state.md R44). -/
def FontIntact (s : State) : Prop :=
  s.config.fontWritable = false → ∀ a : Fin 80, s.readByte a.val = s.config.fontTable[a]

/-- The well-formedness of a state: memory in canonical form, and the font intact (R44). The bounds of the other
elements are in State's types. -/
def StateInv (s : State) : Prop := Memory.wf s.config s.mem ∧ FontIntact s

/-- pc is at most 0x10FE, and every stack entry in use is at most 0x1000 (spec/10_state.md R27, spec/40_control_flow.md
R81). -/
def PcBounded (s : State) : Prop :=
  s.pc.toNat ≤ 0x10FE ∧ ∀ k : Fin 16, k.val < s.sp.val → s.stack[k].toNat ≤ 0x1000

/-- Every copy a sequence of host operations restores was taken from some well-formed state: the copy is opaque, and
only snapshot makes one (spec/60_exceptions.md R156). -/
def RestoresSnapshots (ops : List HostOp) : Prop :=
  ∀ c, HostOp.restore c ∈ ops → ∃ u : State, StateInv u ∧ u.snapshot = c

/-! ## The ends of a run -/

/-- Fault end: the next step faults (spec/70_reset_and_hazards.md R173). -/
def FaultEnd (s : State) (f : Fault) : Prop := step s = .fault f

/-- Idle end at address a: the next word is a jump to itself (R173). -/
def IdleEnd (s : State) (a : Word) : Prop :=
  s.pc = a ∧ a.toNat ≤ 0xFFE ∧ s.wordAt a.toNat = 0x1000 ||| a

end Sys2Proof.Machine
end

