-- ==== Sys2Proof/Certificates/Slice0/Obligations.lean ====
section
/-! DEFINITION. The statements about the model, from the numbered rules of spec/. Values are given in natural-number
arithmetic or through one register, one byte or one pixel, not by the meanings' own definitions. A frame is
`KeepsAllBut`: every part of the state not named is the same, memory byte by byte (Sys2Proof/Safety.lean). "Dn" names
the row of spec/92_eei_decisions.md on which a clause rests: the spec's own choice where its source is silent. "By the
spec's own inference" names a rule that the spec marks as derived from others. -/

open Sys2Proof Sys2Proof.Machine

/-! ## Reset -/

/-- R161, R42 (D17): what construct leaves, for every value of the parameters; the reset state is such a state. -/
def Obligations.ConstructGivesTheResetValues : Prop :=
  State.reset = State.construct State.reset.config ∧
  ∀ c : Config,
    (∀ a : Fin 80, (State.construct c).readByte a.val = c.fontTable[a]) ∧
    (∀ a, 80 ≤ a → a < 4096 → (State.construct c).readByte a = 0) ∧
    (∀ r, (State.construct c).reg r = 0) ∧ (State.construct c).index = 0 ∧ (State.construct c).pc = 0x200 ∧
    (∀ k : Fin 16, (State.construct c).stack[k] = 0) ∧ (State.construct c).sp = 0 ∧
    (State.construct c).dt = 0 ∧ (State.construct c).st = 0 ∧
    (∀ y x, (State.construct c).pixel y x = false) ∧ (∀ k : Fin 16, (State.construct c).keys[k] = false)

/-- R162 (D17): reset leaves what construct leaves, whatever the state was before, and cannot fail. The model's
choices: the count of random bytes read goes on (log 3), and memory that reads as after construct lists nothing (log 4). -/
def Obligations.HostResetIsConstruct : Prop :=
  ∀ s, ∃ t, perform .reset s = (.ok, t) ∧ KeepsAllBut [.draws] (State.construct s.config) t ∧
    t.mem = [] ∧ t.draws = s.draws

/-! ## Fetch, decode, step -/

/-- R63, R65: a step fetches the big-endian word at pc and pc + 1, advances pc by 2, decodes the word and executes the
instruction on that state. -/
def Obligations.StepRunsTheDecodedInstruction : Prop :=
  ∀ s i, s.pc.toNat + 1 < 4096 →
    (∃ w : Word, w.toNat = (s.readByte s.pc.toNat).toNat * 256 + (s.readByte (s.pc.toNat + 1)).toNat ∧
      decode w = .known i) →
    step s = exec i { s with pc := s.pc + 2 }

/-- R50 for fetch (D4, D5): pc = 0xFFF faults with 0x1000, a larger pc faults with pc. -/
def Obligations.FetchOutsideMemoryFaults : Prop :=
  ∀ s, (s.pc = 0xFFF → step s = .fault (.memoryOutOfBounds 0x1000 .fetch)) ∧
    (0x1000 ≤ s.pc.toNat → step s = .fault (.memoryOutOfBounds s.pc.toNat .fetch))

/-- R132: a word that selects no row of the map faults with the word, and the state stays as it was. -/
def Obligations.UnknownWordFaults : Prop :=
  ∀ s (w : Word), s.pc.toNat + 1 < 4096 →
    w.toNat = (s.readByte s.pc.toNat).toNat * 256 + (s.readByte (s.pc.toNat + 1)).toNat →
    wordWellFormed w = false →
    step s = .fault (.unknownInstruction w) ∧ perform .step s = (.fault (.unknownInstruction w), s)

/-- Decode and encode agree: every instruction, with every operand at every value, is read back from its word. -/
def Obligations.DecodeOfEncodeIsTheInstruction : Prop := ∀ i, decode (encode i) = .known i

/-- No bit of a known word is dropped: a decoded word is the encoding of its instruction. -/
def Obligations.DecodedWordIsItsEncoding : Prop := ∀ w i, decode w = .known i → encode i = w

/-- R64: a word that selects a row of R70's map decodes to that row's instruction; one that selects none is Unknown(w). -/
def Obligations.DecodeSelectsTheMatchingRow : Prop :=
  ∀ w : Word,
    (∀ r ∈ opcodeMap, w &&& r.mask = r.pattern → ∃ i, decode w = .known i ∧ i.row = r) ∧
    ((∀ r ∈ opcodeMap, w &&& r.mask ≠ r.pattern) → decode w = .unknown w)

/-- R72, by the spec's own inference: no two rows of the map match the same word. -/
def Obligations.OpcodeRowsAreDisjoint : Prop :=
  opcodeMap.length = 34 ∧
  ∀ w : Word, ∀ j k : Fin opcodeMap.length,
    w &&& opcodeMap[j].mask = opcodeMap[j].pattern → w &&& opcodeMap[k].mask = opcodeMap[k].pattern → j = k

/-- R73's table of the unknown space (D7), group by group, by the values of the nibbles. -/
def Obligations.UnknownSpaceByGroup : Prop :=
  ∀ w : Word, decode w = .unknown w ↔
    (w.toNat < 0x1000 ∧ w.toNat ≠ 0x00E0 ∧ w.toNat ≠ 0x00EE) ∨
    (w.toNat / 4096 = 5 ∧ w.toNat % 16 ≠ 0) ∨
    (w.toNat / 4096 = 8 ∧ w.toNat % 16 ∈ [0x8, 0x9, 0xA, 0xB, 0xC, 0xD, 0xF]) ∨
    (w.toNat / 4096 = 9 ∧ w.toNat % 16 ≠ 0) ∨
    (w.toNat / 4096 = 0xE ∧ w.toNat % 256 ∉ [0x9E, 0xA1]) ∨
    (w.toNat / 4096 = 0xF ∧ w.toNat % 256 ∉ [0x07, 0x0A, 0x15, 0x18, 0x1E, 0x29, 0x33, 0x55, 0x65])

/-- Words written out from R70's patterns decode to the instructions they stand for, one or more of each family. -/
def Obligations.SampleWordsDecode : Prop :=
  decode 0x00E0 = .known .cls ∧ decode 0x00EE = .known .ret ∧ decode 0x2ABC = .known (.call 0xABC) ∧
  decode 0x3A7B = .known (.seByte 0xA 0x7B) ∧ decode 0x8124 = .known (.addReg 1 2) ∧
  decode 0x812E = .known (.shl 1 2) ∧ decode 0xA123 = .known (.ldI 0x123) ∧ decode 0xD125 = .known (.drw 1 2 5) ∧
  decode 0xE1A1 = .known (.sknp 1) ∧ decode 0xF30A = .known (.ldVxKey 3) ∧ decode 0xF255 = .known (.storeRegs 2)

/-! ## Faults -/

/-- R129 (D2): a step that faults leaves the state exactly as it was, and reports the fault. -/
def Obligations.FaultLeavesTheStateUnchanged : Prop :=
  ∀ s f, step s = .fault f → perform .step s = (.fault f, s)

/-- R139, by the spec's own inference: a fault repeats on a retry, and also when only RAND and the keypad differ. -/
def Obligations.FaultsIgnoreRandAndKeypad : Prop :=
  ∀ s f keys draws, step s = .fault f → step { s with keys := keys, draws := draws } = .fault f

/-! ## Control transfer -/

/-- R81, R29 (D18): RET pops the return address into pc; with an empty stack it faults with its own address. The model's
choice (log 14, where R30 leaves the model free to keep or clear a popped entry): the stack entries are unchanged. -/
def Obligations.ReturnPopsIntoPc : Prop :=
  ∀ s, (s.sp.val = 0 → exec .ret s = .fault (.stackUnderflow (s.pc - 2))) ∧
    (0 < s.sp.val → ∃ t, exec .ret s = .next t ∧ t.sp.val + 1 = s.sp.val ∧
      (∀ k : Fin 16, k.val + 1 = s.sp.val → t.pc = s.stack[k]) ∧ KeepsAllBut [.pc, .sp] s t)

/-- R82, R84: the two jumps; V0 + NNN never wraps. -/
def Obligations.JumpsSetPc : Prop :=
  ∀ nnn s,
    (∃ t, exec (.jp nnn) s = .next t ∧ t.pc.toNat = nnn.toNat ∧ KeepsAllBut [.pc] s t) ∧
    (∃ t, exec (.jpV0 nnn) s = .next t ∧ t.pc.toNat = (s.reg 0).toNat + nnn.toNat ∧ KeepsAllBut [.pc] s t)

/-- R83, R29 (D18; the pushed value by the spec's own inference): CALL pushes the advanced pc and jumps; with a full
stack it faults with its own address. -/
def Obligations.CallPushesAndJumps : Prop :=
  ∀ nnn s, (s.sp.val = 16 → exec (.call nnn) s = .fault (.stackOverflow (s.pc - 2))) ∧
    (s.sp.val < 16 → ∃ t, exec (.call nnn) s = .next t ∧ t.sp.val = s.sp.val + 1 ∧ t.pc.toNat = nnn.toNat ∧
      (∀ k : Fin 16, t.stack[k] = if k.val = s.sp.val then s.pc else s.stack[k]) ∧
      KeepsAllBut [.pc, .sp, .stack] s t)

/-- R81's property: a RET run with the stack a CALL left returns pc to the instruction following the call, and the stack
depth to its value before it. -/
def Obligations.ReturnAfterCallComesBack : Prop :=
  ∀ nnn s u, s.sp.val < 16 →
    (∃ t, exec (.call nnn) s = .next t ∧ u.stack = t.stack ∧ u.sp = t.sp) →
    ∃ v, exec .ret u = .next v ∧ v.pc = s.pc ∧ v.sp = s.sp

/-- R85, R86, R87, R88: the skips add 2 to pc when their condition holds and change nothing else. -/
def Obligations.SkipsTestTheirCondition : Prop :=
  ∀ x y nn s,
    (∃ t, exec (.seByte x nn) s = .next t ∧ (t.pc = if s.reg x = nn then s.pc + 2 else s.pc) ∧
      KeepsAllBut [.pc] s t) ∧
    (∃ t, exec (.sneByte x nn) s = .next t ∧ (t.pc = if s.reg x = nn then s.pc else s.pc + 2) ∧
      KeepsAllBut [.pc] s t) ∧
    (∃ t, exec (.seReg x y) s = .next t ∧ (t.pc = if s.reg x = s.reg y then s.pc + 2 else s.pc) ∧
      KeepsAllBut [.pc] s t) ∧
    (∃ t, exec (.sneReg x y) s = .next t ∧ (t.pc = if s.reg x = s.reg y then s.pc else s.pc + 2) ∧
      KeepsAllBut [.pc] s t)

/-! ## Loads and ALU -/

/-- R93, R94, R95: load immediate, add immediate (no flag), copy. -/
def Obligations.LoadsAndAddImmediate : Prop :=
  ∀ x y nn s,
    (∃ t, exec (.ldByte x nn) s = .next t ∧ t.reg x = nn ∧ WritesOnlyRegs [x] s t) ∧
    (∃ t, exec (.addByte x nn) s = .next t ∧ (t.reg x).toNat = ((s.reg x).toNat + nn.toNat) % 256 ∧
      WritesOnlyRegs [x] s t) ∧
    (∃ t, exec (.ldReg x y) s = .next t ∧ t.reg x = s.reg y ∧ WritesOnlyRegs [x] s t)

/-- R96, R97, R98 (D9): OR, AND and XOR bit by bit; VF is written only when it is the destination. -/
def Obligations.LogicIsBitwise : Prop :=
  ∀ x y s,
    (∃ t, exec (.orReg x y) s = .next t ∧
      (∀ k, (t.reg x).getLsbD k = ((s.reg x).getLsbD k || (s.reg y).getLsbD k)) ∧ WritesOnlyRegs [x] s t) ∧
    (∃ t, exec (.andReg x y) s = .next t ∧
      (∀ k, (t.reg x).getLsbD k = ((s.reg x).getLsbD k && (s.reg y).getLsbD k)) ∧ WritesOnlyRegs [x] s t) ∧
    (∃ t, exec (.xorReg x y) s = .next t ∧
      (∀ k, (t.reg x).getLsbD k = ((s.reg x).getLsbD k != (s.reg y).getLsbD k)) ∧ WritesOnlyRegs [x] s t)

/-- R99 (D8 for X = 0xF): the sum modulo 256, VF the carry; with X = 0xF, VF ends as the carry. -/
def Obligations.AddWritesSumAndCarry : Prop :=
  ∀ x y s, ∃ t, exec (.addReg x y) s = .next t ∧
    (x ≠ Reg.vf → (t.reg x).toNat = ((s.reg x).toNat + (s.reg y).toNat) % 256) ∧
    (t.reg Reg.vf = if (s.reg x).toNat + (s.reg y).toNat > 255 then 1 else 0) ∧ WritesOnlyRegs [x, Reg.vf] s t

/-- R100, R102 (D8 for X = 0xF): the two subtractions modulo 256, VF NOT borrow; with X = 0xF, VF ends as the flag. -/
def Obligations.SubtractionsWriteNotBorrow : Prop :=
  ∀ x y s,
    (∃ t, exec (.subReg x y) s = .next t ∧
      (x ≠ Reg.vf → ((t.reg x).toNat : Int) = (((s.reg x).toNat : Int) - (s.reg y).toNat) % 256) ∧
      (t.reg Reg.vf = if (s.reg x).toNat ≥ (s.reg y).toNat then 1 else 0) ∧ WritesOnlyRegs [x, Reg.vf] s t) ∧
    (∃ t, exec (.subn x y) s = .next t ∧
      (x ≠ Reg.vf → ((t.reg x).toNat : Int) = (((s.reg y).toNat : Int) - (s.reg x).toNat) % 256) ∧
      (t.reg Reg.vf = if (s.reg y).toNat ≥ (s.reg x).toNat then 1 else 0) ∧ WritesOnlyRegs [x, Reg.vf] s t)

/-- R101, R103 (D8 for X = 0xF): the shifts by one, VF the dropped bit, the Y field ignored; with X = 0xF, VF ends as the
dropped bit. -/
def Obligations.ShiftsDropTheirBitIntoFlag : Prop :=
  ∀ x y s,
    (∃ t, exec (.shr x y) s = .next t ∧ (x ≠ Reg.vf → (t.reg x).toNat = (s.reg x).toNat / 2) ∧
      (t.reg Reg.vf).toNat = (s.reg x).toNat % 2 ∧ WritesOnlyRegs [x, Reg.vf] s t) ∧
    (∃ t, exec (.shl x y) s = .next t ∧ (x ≠ Reg.vf → (t.reg x).toNat = (s.reg x).toNat * 2 % 256) ∧
      (t.reg Reg.vf).toNat = (s.reg x).toNat / 128 ∧ WritesOnlyRegs [x, Reg.vf] s t)

/-- R104 (D15): the result is some byte AND NN, so bits clear in NN are 0; nothing is said of the byte. The model's choice
(log 3): the byte is the free value numbered by the count of random bytes read, of which nothing can be proved, and the
count goes up by one. -/
def Obligations.RandomByteIsMasked : Prop :=
  ∀ x nn s, ∃ t, exec (.rnd x nn) s = .next t ∧ (∃ rand : Byte, t.reg x = rand &&& nn) ∧
    t.reg x = Config.rand s.draws &&& nn ∧
    (∀ k, nn.getLsbD k = false → (t.reg x).getLsbD k = false) ∧
    (∀ r, r ≠ x → t.reg r = s.reg r) ∧ KeepsAllBut [.regs, .draws] s t ∧ t.draws = s.draws + 1

/-! ## Index and memory -/

/-- R105, R106 (D9: no flag), R107: the three writers of I; none touches a register. -/
def Obligations.IndexLoads : Prop :=
  ∀ x nnn s,
    (∃ t, exec (.ldI nnn) s = .next t ∧ t.index.toNat = nnn.toNat ∧ KeepsAllBut [.index] s t) ∧
    (∃ t, exec (.addI x) s = .next t ∧ t.index.toNat = (s.index.toNat + (s.reg x).toNat) % 65536 ∧
      KeepsAllBut [.index] s t) ∧
    (∃ t, exec (.ldFont x) s = .next t ∧ t.index.toNat = (s.reg x).toNat * 5 ∧ KeepsAllBut [.index] s t)

/-- R108 (D4, D14): FX33 writes the three digits to I, I + 1, I + 2 and nothing else, or faults with the lowest bad address. -/
def Obligations.BcdWritesThreeDigits : Prop :=
  ∀ x s,
    (4096 ≤ s.index.toNat + 2 →
      exec (.ldBcd x) s = .fault (.memoryOutOfBounds (max s.index.toNat 4096) .write)) ∧
    (s.config.fontWritable = false → s.index.toNat < 0x050 →
      exec (.ldBcd x) s = .fault (.fontWrite s.index.toNat)) ∧
    (s.index.toNat + 2 < 4096 → (s.config.fontWritable = true ∨ 0x050 ≤ s.index.toNat) →
      ∃ t, exec (.ldBcd x) s = .next t ∧
        (t.readByte s.index.toNat).toNat = (s.reg x).toNat / 100 ∧
        (t.readByte (s.index.toNat + 1)).toNat = (s.reg x).toNat / 10 % 10 ∧
        (t.readByte (s.index.toNat + 2)).toNat = (s.reg x).toNat % 10 ∧ WritesOnlyBytes s.index.toNat 3 s t)

/-- R112, the BCD law, by the spec's own inference: the digits FX33 leaves add up to VX and are decimal digits. -/
def Obligations.BcdDigitsAddUp : Prop :=
  ∀ x s t, exec (.ldBcd x) s = .next t → ∃ d2 d1 d0 : Nat,
    (t.readByte s.index.toNat).toNat = d2 ∧ (t.readByte (s.index.toNat + 1)).toNat = d1 ∧
    (t.readByte (s.index.toNat + 2)).toNat = d0 ∧
    100 * d2 + 10 * d1 + d0 = (s.reg x).toNat ∧ d2 ≤ 2 ∧ d1 ≤ 9 ∧ d0 ≤ 9

/-- R109 (D4, D10, D14): FX55 stores V0 to VX at I to I + X and changes nothing else, I included, or faults. -/
def Obligations.StoreRegistersWritesTheBlock : Prop :=
  ∀ x s,
    (4096 ≤ s.index.toNat + x.val →
      exec (.storeRegs x) s = .fault (.memoryOutOfBounds (max s.index.toNat 4096) .write)) ∧
    (s.config.fontWritable = false → s.index.toNat < 0x050 →
      exec (.storeRegs x) s = .fault (.fontWrite s.index.toNat)) ∧
    (s.index.toNat + x.val < 4096 → (s.config.fontWritable = true ∨ 0x050 ≤ s.index.toNat) →
      ∃ t, exec (.storeRegs x) s = .next t ∧
        (∀ k : Reg, k ≤ x → t.readByte (s.index.toNat + k.val) = s.reg k) ∧
        WritesOnlyBytes s.index.toNat (x.val + 1) s t)

/-- R110 (D4, D10): FX65 loads V0 to VX from I to I + X and changes nothing else, I included, or faults. -/
def Obligations.LoadRegistersReadsTheBlock : Prop :=
  ∀ x s,
    (4096 ≤ s.index.toNat + x.val →
      exec (.loadRegs x) s = .fault (.memoryOutOfBounds (max s.index.toNat 4096) .read)) ∧
    (s.index.toNat + x.val < 4096 →
      ∃ t, exec (.loadRegs x) s = .next t ∧ (∀ k : Reg, k ≤ x → t.reg k = s.readByte (s.index.toNat + k.val)) ∧
        (∀ k : Reg, x < k → t.reg k = s.reg k) ∧ KeepsAllBut [.regs] s t)

/-- From R109 and R110 (D10): registers that FX55 stored come back with FX65 from the same I, whatever happened to the registers between. -/
def Obligations.StoreThenLoadRestoresRegisters : Prop :=
  ∀ x s t u, exec (.storeRegs x) s = .next t → u.index = s.index → Keeps t u .mem →
    ∃ v, exec (.loadRegs x) u = .next v ∧ (∀ k : Reg, k ≤ x → v.reg k = s.reg k) ∧
      ∀ k : Reg, x < k → v.reg k = u.reg k

/-! ## Display -/

/-- R113: CLS makes every pixel false and changes nothing else. -/
def Obligations.ClearScreenClearsEveryPixel : Prop :=
  ∀ s, ∃ t, exec .cls s = .next t ∧ (∀ y x, t.pixel y x = false) ∧ KeepsAllBut [.fb] s t

/-- R114 to R117 (D4, D11, D12): DXYN flips exactly the pixels its set bits land on, wrapped; VF says whether one was on
before; or it faults with the lowest bad address. -/
def Obligations.DrawFlipsTheCoveredPixels : Prop :=
  ∀ x y n s,
    (0 < n.toNat → 4096 < s.index.toNat + n.toNat →
      exec (.drw x y n) s = .fault (.memoryOutOfBounds (max s.index.toNat 4096) .read)) ∧
    ((n.toNat = 0 ∨ s.index.toNat + n.toNat ≤ 4096) →
      ∃ t, exec (.drw x y n) s = .next t ∧
        (∀ py px, SpriteCovers s x y n.toNat py px → t.pixel py px = !s.pixel py px) ∧
        (∀ py px, ¬ SpriteCovers s x y n.toNat py px → t.pixel py px = s.pixel py px) ∧
        (SpriteHits s x y n.toNat → t.reg Reg.vf = 1) ∧ (¬ SpriteHits s x y n.toNat → t.reg Reg.vf = 0) ∧
        (∀ r, r ≠ Reg.vf → t.reg r = s.reg r) ∧ KeepsAllBut [.regs, .fb] s t)

/-- R118 (D12): a draw of zero rows reads nothing, cannot fault whatever I is, changes no pixel and clears VF. -/
def Obligations.DrawOfZeroRowsOnlyClearsFlag : Prop :=
  ∀ x y s, ∃ t, exec (.drw x y 0) s = .next t ∧ t.reg Reg.vf = 0 ∧ WritesOnlyRegs [Reg.vf] s t

/-- R117's property (D11), in the model's reading (log 13: R117's last sentence speaks of a first draw that turned a pixel
on): the same sprite drawn again at the same location restores the framebuffer, and sets VF exactly when
the first draw turned a pixel on: always, when the framebuffer was clear and the sprite has a set bit. -/
def Obligations.DrawingTwiceRestoresThePixels : Prop :=
  ∀ x y n s t, exec (.drw x y n) s = .next t → t.reg x = s.reg x → t.reg y = s.reg y →
    ∃ u, exec (.drw x y n) t = .next u ∧ (∀ py px, u.pixel py px = s.pixel py px) ∧
      (u.reg Reg.vf = 1 ↔ ∃ py px, s.pixel py px = false ∧ t.pixel py px = true) ∧
      ((∀ py px, s.pixel py px = false) → (∃ py px, SpriteCovers s x y n.toNat py px) → u.reg Reg.vf = 1)

/-- R119, by the spec's own inference: no two sprite bits of one draw land on the same pixel. -/
def Obligations.SpriteBitsLandOnDifferentPixels : Prop :=
  ∀ (vx vy : Byte) (r c q d : Nat), r < 15 → c < 8 → q < 15 → d < 8 →
    pixelRow vy r = pixelRow vy q → pixelColumn vx c = pixelColumn vx d → r = q ∧ c = d

/-! ## Keys and timers -/

/-- R120, R121, R122 (D13): the key skips, and their fault for a key index of 16 or more. -/
def Obligations.KeySkipsTestTheKey : Prop :=
  ∀ x s,
    (16 ≤ (s.reg x).toNat → exec (.skp x) s = .fault (.keyIndexOutOfRange (s.reg x)) ∧
      exec (.sknp x) s = .fault (.keyIndexOutOfRange (s.reg x))) ∧
    (∀ k : Fin 16, (s.reg x).toNat = k.val →
      (∃ t, exec (.skp x) s = .next t ∧ (t.pc = if s.keys[k] = true then s.pc + 2 else s.pc) ∧
        KeepsAllBut [.pc] s t) ∧
      ∃ t, exec (.sknp x) s = .next t ∧ (t.pc = if s.keys[k] = true then s.pc else s.pc + 2) ∧
        KeepsAllBut [.pc] s t)

/-- R124 (D29): FX0A stores the lowest pressed key's index, or rewinds pc by 2 and changes nothing else. -/
def Obligations.KeyWaitTakesTheLowestKey : Prop :=
  ∀ x s,
    (∀ k : Fin 16, s.keys[k] = true → (∀ j : Fin 16, j < k → s.keys[j] = false) →
      ∃ t, exec (.ldVxKey x) s = .next t ∧ (t.reg x).toNat = k.val ∧ WritesOnlyRegs [x] s t) ∧
    ((∀ k : Fin 16, s.keys[k] = false) →
      ∃ t, exec (.ldVxKey x) s = .next t ∧ t.pc = s.pc - 2 ∧ KeepsAllBut [.pc] s t)

/-- R168, by the spec's own inference: a step at an FX0A with no key pressed leaves the whole state as it was, so that the wait can last for
ever. -/
def Obligations.KeyWaitWithoutKeyIsAFixedPoint : Prop :=
  ∀ x s, Runs s (.ldVxKey x) → (∀ k : Fin 16, s.keys[k] = false) → step s = .next s

/-- R123, R125, R126: the timer moves. -/
def Obligations.TimerMoves : Prop :=
  ∀ x s,
    (∃ t, exec (.ldVxDt x) s = .next t ∧ t.reg x = s.dt ∧ WritesOnlyRegs [x] s t) ∧
    (∃ t, exec (.ldDtVx x) s = .next t ∧ t.dt = s.reg x ∧ KeepsAllBut [.dt] s t) ∧
    (∃ t, exec (.ldStVx x) s = .next t ∧ t.st = s.reg x ∧ KeepsAllBut [.st] s t)

/-! ## Whole-machine rules -/

/-- R34: instructions only read the keypad. The model's choice (log 1): the parameters are fixed too. -/
def Obligations.StepsNeverWriteTheKeypad : Prop :=
  ∀ s t, step s = .next t → t.keys = s.keys ∧ t.config = s.config

/-- R28 (D18): no instruction writes the stack or its pointer except 2NNN and 00EE. The model's choice (log 14, where R30
leaves the model free): 00EE leaves the entries, so that only 2NNN changes one. -/
def Obligations.OnlyCallAndReturnTouchTheStack : Prop :=
  ∀ s t, step s = .next t → (t.stack ≠ s.stack → ∃ nnn, Runs s (.call nnn)) ∧
    (t.sp ≠ s.sp → Runs s .ret ∨ ∃ nnn, Runs s (.call nnn))

/-- R33: only 00E0 and DXYN write the framebuffer. -/
def Obligations.OnlyClearAndDrawWritePixels : Prop :=
  ∀ s t, step s = .next t → t.fb ≠ s.fb → Runs s .cls ∨ ∃ x y n, Runs s (.drw x y n)

/-- R127, R65: a step never ticks the timers; only FX15 writes dt and only FX18 writes st. -/
def Obligations.StepsNeverTickTheTimers : Prop :=
  ∀ s t, step s = .next t →
    (t.dt ≠ s.dt → ∃ x, Runs s (.ldDtVx x) ∧ t.dt = s.reg x) ∧
    (t.st ≠ s.st → ∃ x, Runs s (.ldStVx x) ∧ t.st = s.reg x)

/-- R24 (D10): three instructions write I: ANNN, FX1E and FX29. -/
def Obligations.OnlyThreeInstructionsWriteIndex : Prop :=
  ∀ s t, step s = .next t → t.index ≠ s.index →
    (∃ nnn, Runs s (.ldI nnn)) ∨ ∃ x, Runs s (.addI x) ∨ Runs s (.ldFont x)

/-- R45, R49, R53 (D14): a byte that a step changed was written by FX33 or FX55 within their blocks at I, lies inside memory,
and lies outside the font unless FONT_WRITABLE. -/
def Obligations.OnlyStoresWriteMemory : Prop :=
  ∀ s t a, step s = .next t → t.readByte a ≠ s.readByte a →
    s.index.toNat ≤ a ∧ a < 4096 ∧ (s.config.fontWritable = false → 0x050 ≤ a) ∧
    ∃ x, (Runs s (.ldBcd x) ∧ a ≤ s.index.toNat + 2) ∨ (Runs s (.storeRegs x) ∧ a ≤ s.index.toNat + x.val)

/-- R22 (D9): VF is written only by the flag instructions and through a register field equal to 0xF. -/
def Obligations.OnlyTheListedInstructionsWriteVf : Prop :=
  ∀ s t, step s = .next t → t.reg Reg.vf ≠ s.reg Reg.vf → ∃ i, Runs s i ∧ mayWriteVf i = true

/-- R26: every instruction but the jumps, the call, the return, the skips and FX0A leaves pc at its address plus 2. -/
def Obligations.OtherInstructionsLeavePcAtNext : Prop :=
  ∀ s t i, Runs s i → step s = .next t → mayMovePc i = false → t.pc = s.pc + 2

/-- R61 (D22): a store over the next instruction is what the next step fetches, wherever the block of FX55 or FX33 meets
that word: with `b` the bytes of memory after the store, the next step runs the word of `b` at the next address, or
faults with it when it is unknown. -/
def Obligations.StoreIsVisibleToTheNextFetch : Prop :=
  ∀ x s t (b : Nat → Byte) (w : Word), step s = .next t → s.pc.toNat + 3 < 4096 →
    ((Runs s (.storeRegs x) ∧ (∀ k : Reg, k ≤ x → b (s.index.toNat + k.val) = s.reg k) ∧
        (∀ a, a < s.index.toNat ∨ s.index.toNat + x.val < a → b a = s.readByte a)) ∨
      (Runs s (.ldBcd x) ∧ (b s.index.toNat).toNat = (s.reg x).toNat / 100 ∧
        (b (s.index.toNat + 1)).toNat = (s.reg x).toNat / 10 % 10 ∧
        (b (s.index.toNat + 2)).toNat = (s.reg x).toNat % 10 ∧
        (∀ a, a < s.index.toNat ∨ s.index.toNat + 2 < a → b a = s.readByte a))) →
    w.toNat = (b (s.pc.toNat + 2)).toNat * 256 + (b (s.pc.toNat + 3)).toNat →
    (∀ i, decode w = .known i → step t = exec i { t with pc := t.pc + 2 }) ∧
    (wordWellFormed w = false → step t = .fault (.unknownInstruction w))

/-! ## Invariants -/

/-- The invariants hold at the state construct leaves, for every value of the parameters: the font as in R44 and the
bounds of pc and the stack as in R27 and R81, the spec's own inferences; that memory is a canonical list is the model's
form (log 4). -/
def Obligations.ConstructMeetsTheInvariants : Prop :=
  ∀ c, StateInv (State.construct c) ∧ PcBounded (State.construct c)

/-- R44, by the spec's own inference: every step keeps the font intact with FONT_WRITABLE false, and
keeps memory canonical, which is the model's form (log 4). -/
def Obligations.StepKeepsMemoryAndFont : Prop := ∀ s t, StateInv s → step s = .next t → StateInv t

/-- R27, by the spec's own inference: no instruction carries pc past 0x10FE, and the stack only ever holds addresses up to 0x1000. -/
def Obligations.StepKeepsPcBounded : Prop := ∀ s t, PcBounded s → step s = .next t → PcBounded t

/-- R44, by the spec's own inference, over the whole interface (D30): any sequence of host operations, in any order, keeps
the font intact, restores being of copies that snapshot took of well-formed states. The model's choices: memory is kept
canonical (log 4), and a restored copy brings the parameters it was taken under (log 8). -/
def Obligations.HostOperationsKeepMemoryAndFont : Prop :=
  ∀ ops s, StateInv s → RestoresSnapshots ops → StateInv (performAll ops s).2

/-! ## The end of a run -/

/-- R173 (D25): at an idle end every later step leaves the whole state unchanged. -/
def Obligations.IdleEndIsAFixedPoint : Prop := ∀ s a, IdleEnd s a → step s = .next s

/-! ## Host operations -/

/-- R143, R154: a tick takes 1 from each timer that is above 0, and changes nothing else. -/
def Obligations.TickCountsBothTimersDown : Prop :=
  ∀ s, ∃ t, perform .tickTimers s = (.ok, t) ∧ t.dt.toNat = s.dt.toNat - 1 ∧ t.st.toNat = s.st.toNat - 1 ∧
    KeepsAllBut [.dt, .st] s t

/-- R152 (D19): load_program copies the image to 0x200 and on and changes nothing else, or rejects it whole. -/
def Obligations.LoadProgramCopiesTheImage : Prop :=
  ∀ b s,
    (3584 < b.length → perform (.loadProgram b) s = (.error (.loadOverflow b.length), s)) ∧
    (b.length ≤ 3584 → ∃ t, perform (.loadProgram b) s = (.ok, t) ∧
      (∀ k, (h : k < b.length) → t.readByte (0x200 + k) = b[k]) ∧ WritesOnlyBytes 0x200 b.length s t)

/-- R155 (D20): set_key sets one key and changes nothing else, or rejects the index. -/
def Obligations.SetKeySetsOneKey : Prop :=
  ∀ index pressed s,
    (16 ≤ index → perform (.setKey index pressed) s = (.error (.setKeyOutOfRange index), s)) ∧
    (index < 16 → ∃ t, perform (.setKey index pressed) s = (.ok, t) ∧
      (∀ k : Fin 16, t.keys[k] = if k.val = index then pressed else s.keys[k]) ∧ KeepsAllBut [.keys] s t)

/-- R156 (D24): restoring a snapshot after any host operations gives back the whole state it was taken of. The model's
choices: the count of random bytes read is not in the copy (log 3), and FONT_TABLE and FONT_WRITABLE are (log 8). -/
def Obligations.RestoreGivesBackTheSnapshot : Prop :=
  ∀ s ops, ∃ t, perform (.restore s.snapshot) (performAll ops s).2 = (.ok, t) ∧ t = { s with draws := t.draws } ∧
    t.draws = (performAll ops s).2.draws

/-- R151, R146 (D21), R156, R157 (D31): the operations that observe the Machine answer from its state and change
nothing; of register_dump's text, a free value (log 9), nothing is said but that there is one. -/
def Obligations.ObservationsChangeNothing : Prop :=
  ∀ s, perform .framebuffer s = (.grid s.fb, s) ∧
    perform .soundActive s = (.sound (decide (s.st.toNat ≠ 0)), s) ∧
    perform .snapshot s = (.copy s.snapshot, s) ∧ ∃ x, perform .registerDump s = (.text x, s)
end

