-- ==== Sys2Proof/Laws/State.lean ====
section
/-! SUPPORT. One lemma per field per update, true by rfl, so that no later proof unfolds a record update. -/

namespace Sys2Proof.Machine

variable (s : State)

/-! ### One byte of memory -/

@[simp] theorem State.writeByte_mem (a : Nat) (v : Byte) : (s.writeByte a v).mem = Memory.write s.config a v s.mem := rfl
@[simp] theorem State.writeByte_regs (a : Nat) (v : Byte) : (s.writeByte a v).regs = s.regs := rfl
@[simp] theorem State.writeByte_index (a : Nat) (v : Byte) : (s.writeByte a v).index = s.index := rfl
@[simp] theorem State.writeByte_pc (a : Nat) (v : Byte) : (s.writeByte a v).pc = s.pc := rfl
@[simp] theorem State.writeByte_stack (a : Nat) (v : Byte) : (s.writeByte a v).stack = s.stack := rfl
@[simp] theorem State.writeByte_sp (a : Nat) (v : Byte) : (s.writeByte a v).sp = s.sp := rfl
@[simp] theorem State.writeByte_dt (a : Nat) (v : Byte) : (s.writeByte a v).dt = s.dt := rfl
@[simp] theorem State.writeByte_st (a : Nat) (v : Byte) : (s.writeByte a v).st = s.st := rfl
@[simp] theorem State.writeByte_fb (a : Nat) (v : Byte) : (s.writeByte a v).fb = s.fb := rfl
@[simp] theorem State.writeByte_keys (a : Nat) (v : Byte) : (s.writeByte a v).keys = s.keys := rfl
@[simp] theorem State.writeByte_config (a : Nat) (v : Byte) : (s.writeByte a v).config = s.config := rfl
@[simp] theorem State.writeByte_draws (a : Nat) (v : Byte) : (s.writeByte a v).draws = s.draws := rfl

/-! ### One register -/

@[simp] theorem State.setReg_mem (i : Reg) (v : Byte) : (s.setReg i v).mem = s.mem := rfl
@[simp] theorem State.setReg_regs (i : Reg) (v : Byte) : (s.setReg i v).regs = s.regs.set i v := rfl
@[simp] theorem State.setReg_index (i : Reg) (v : Byte) : (s.setReg i v).index = s.index := rfl
@[simp] theorem State.setReg_pc (i : Reg) (v : Byte) : (s.setReg i v).pc = s.pc := rfl
@[simp] theorem State.setReg_stack (i : Reg) (v : Byte) : (s.setReg i v).stack = s.stack := rfl
@[simp] theorem State.setReg_sp (i : Reg) (v : Byte) : (s.setReg i v).sp = s.sp := rfl
@[simp] theorem State.setReg_dt (i : Reg) (v : Byte) : (s.setReg i v).dt = s.dt := rfl
@[simp] theorem State.setReg_st (i : Reg) (v : Byte) : (s.setReg i v).st = s.st := rfl
@[simp] theorem State.setReg_fb (i : Reg) (v : Byte) : (s.setReg i v).fb = s.fb := rfl
@[simp] theorem State.setReg_keys (i : Reg) (v : Byte) : (s.setReg i v).keys = s.keys := rfl
@[simp] theorem State.setReg_config (i : Reg) (v : Byte) : (s.setReg i v).config = s.config := rfl
@[simp] theorem State.setReg_draws (i : Reg) (v : Byte) : (s.setReg i v).draws = s.draws := rfl

/-! ### Result and flag -/

@[simp] theorem State.setRegThenFlag_mem (x : Reg) (r f : Byte) : (s.setRegThenFlag x r f).mem = s.mem := rfl
@[simp] theorem State.setRegThenFlag_regs (x : Reg) (r f : Byte) : (s.setRegThenFlag x r f).regs = (s.regs.set x r).set Reg.vf f := rfl
@[simp] theorem State.setRegThenFlag_index (x : Reg) (r f : Byte) : (s.setRegThenFlag x r f).index = s.index := rfl
@[simp] theorem State.setRegThenFlag_pc (x : Reg) (r f : Byte) : (s.setRegThenFlag x r f).pc = s.pc := rfl
@[simp] theorem State.setRegThenFlag_stack (x : Reg) (r f : Byte) : (s.setRegThenFlag x r f).stack = s.stack := rfl
@[simp] theorem State.setRegThenFlag_sp (x : Reg) (r f : Byte) : (s.setRegThenFlag x r f).sp = s.sp := rfl
@[simp] theorem State.setRegThenFlag_dt (x : Reg) (r f : Byte) : (s.setRegThenFlag x r f).dt = s.dt := rfl
@[simp] theorem State.setRegThenFlag_st (x : Reg) (r f : Byte) : (s.setRegThenFlag x r f).st = s.st := rfl
@[simp] theorem State.setRegThenFlag_fb (x : Reg) (r f : Byte) : (s.setRegThenFlag x r f).fb = s.fb := rfl
@[simp] theorem State.setRegThenFlag_keys (x : Reg) (r f : Byte) : (s.setRegThenFlag x r f).keys = s.keys := rfl
@[simp] theorem State.setRegThenFlag_config (x : Reg) (r f : Byte) : (s.setRegThenFlag x r f).config = s.config := rfl
@[simp] theorem State.setRegThenFlag_draws (x : Reg) (r f : Byte) : (s.setRegThenFlag x r f).draws = s.draws := rfl

/-! ### The program counter -/

@[simp] theorem State.jump_mem (target : Word) : (s.jump target).mem = s.mem := rfl
@[simp] theorem State.jump_regs (target : Word) : (s.jump target).regs = s.regs := rfl
@[simp] theorem State.jump_index (target : Word) : (s.jump target).index = s.index := rfl
@[simp] theorem State.jump_pc (target : Word) : (s.jump target).pc = target := rfl
@[simp] theorem State.jump_stack (target : Word) : (s.jump target).stack = s.stack := rfl
@[simp] theorem State.jump_sp (target : Word) : (s.jump target).sp = s.sp := rfl
@[simp] theorem State.jump_dt (target : Word) : (s.jump target).dt = s.dt := rfl
@[simp] theorem State.jump_st (target : Word) : (s.jump target).st = s.st := rfl
@[simp] theorem State.jump_fb (target : Word) : (s.jump target).fb = s.fb := rfl
@[simp] theorem State.jump_keys (target : Word) : (s.jump target).keys = s.keys := rfl
@[simp] theorem State.jump_config (target : Word) : (s.jump target).config = s.config := rfl
@[simp] theorem State.jump_draws (target : Word) : (s.jump target).draws = s.draws := rfl

/-! ### A skip -/

@[simp] theorem State.skipIf_mem (c : Bool) : (s.skipIf c).mem = s.mem := by cases c <;> rfl
@[simp] theorem State.skipIf_regs (c : Bool) : (s.skipIf c).regs = s.regs := by cases c <;> rfl
@[simp] theorem State.skipIf_index (c : Bool) : (s.skipIf c).index = s.index := by cases c <;> rfl
theorem State.skipIf_pc (c : Bool) : (s.skipIf c).pc = if c then s.pc + 2 else s.pc := by cases c <;> rfl
@[simp] theorem State.skipIf_stack (c : Bool) : (s.skipIf c).stack = s.stack := by cases c <;> rfl
@[simp] theorem State.skipIf_sp (c : Bool) : (s.skipIf c).sp = s.sp := by cases c <;> rfl
@[simp] theorem State.skipIf_dt (c : Bool) : (s.skipIf c).dt = s.dt := by cases c <;> rfl
@[simp] theorem State.skipIf_st (c : Bool) : (s.skipIf c).st = s.st := by cases c <;> rfl
@[simp] theorem State.skipIf_fb (c : Bool) : (s.skipIf c).fb = s.fb := by cases c <;> rfl
@[simp] theorem State.skipIf_keys (c : Bool) : (s.skipIf c).keys = s.keys := by cases c <;> rfl
@[simp] theorem State.skipIf_config (c : Bool) : (s.skipIf c).config = s.config := by cases c <;> rfl
@[simp] theorem State.skipIf_draws (c : Bool) : (s.skipIf c).draws = s.draws := by cases c <;> rfl

/-! ### Consecutive bytes of memory -/

@[simp] theorem State.writeBytes_regs (a : Nat) (bytes : List Byte) : (s.writeBytes a bytes).regs = s.regs := by
  induction bytes generalizing s a with
  | nil => rfl
  | cons v rest ih => exact ih (s.writeByte a v) (a + 1)
@[simp] theorem State.writeBytes_index (a : Nat) (bytes : List Byte) : (s.writeBytes a bytes).index = s.index := by
  induction bytes generalizing s a with
  | nil => rfl
  | cons v rest ih => exact ih (s.writeByte a v) (a + 1)
@[simp] theorem State.writeBytes_pc (a : Nat) (bytes : List Byte) : (s.writeBytes a bytes).pc = s.pc := by
  induction bytes generalizing s a with
  | nil => rfl
  | cons v rest ih => exact ih (s.writeByte a v) (a + 1)
@[simp] theorem State.writeBytes_stack (a : Nat) (bytes : List Byte) : (s.writeBytes a bytes).stack = s.stack := by
  induction bytes generalizing s a with
  | nil => rfl
  | cons v rest ih => exact ih (s.writeByte a v) (a + 1)
@[simp] theorem State.writeBytes_sp (a : Nat) (bytes : List Byte) : (s.writeBytes a bytes).sp = s.sp := by
  induction bytes generalizing s a with
  | nil => rfl
  | cons v rest ih => exact ih (s.writeByte a v) (a + 1)
@[simp] theorem State.writeBytes_dt (a : Nat) (bytes : List Byte) : (s.writeBytes a bytes).dt = s.dt := by
  induction bytes generalizing s a with
  | nil => rfl
  | cons v rest ih => exact ih (s.writeByte a v) (a + 1)
@[simp] theorem State.writeBytes_st (a : Nat) (bytes : List Byte) : (s.writeBytes a bytes).st = s.st := by
  induction bytes generalizing s a with
  | nil => rfl
  | cons v rest ih => exact ih (s.writeByte a v) (a + 1)
@[simp] theorem State.writeBytes_fb (a : Nat) (bytes : List Byte) : (s.writeBytes a bytes).fb = s.fb := by
  induction bytes generalizing s a with
  | nil => rfl
  | cons v rest ih => exact ih (s.writeByte a v) (a + 1)
@[simp] theorem State.writeBytes_keys (a : Nat) (bytes : List Byte) : (s.writeBytes a bytes).keys = s.keys := by
  induction bytes generalizing s a with
  | nil => rfl
  | cons v rest ih => exact ih (s.writeByte a v) (a + 1)
@[simp] theorem State.writeBytes_config (a : Nat) (bytes : List Byte) : (s.writeBytes a bytes).config = s.config := by
  induction bytes generalizing s a with
  | nil => rfl
  | cons v rest ih => exact ih (s.writeByte a v) (a + 1)
@[simp] theorem State.writeBytes_draws (a : Nat) (bytes : List Byte) : (s.writeBytes a bytes).draws = s.draws := by
  induction bytes generalizing s a with
  | nil => rfl
  | cons v rest ih => exact ih (s.writeByte a v) (a + 1)

/-! ### Consecutive registers -/

@[simp] theorem State.setRegsFrom_mem (k : Nat) (bytes : List Byte) : (s.setRegsFrom k bytes).mem = s.mem := by
  induction bytes generalizing s k with
  | nil => rfl
  | cons v rest ih => simp only [State.setRegsFrom, ih]; split <;> rfl
@[simp] theorem State.setRegsFrom_index (k : Nat) (bytes : List Byte) : (s.setRegsFrom k bytes).index = s.index := by
  induction bytes generalizing s k with
  | nil => rfl
  | cons v rest ih => simp only [State.setRegsFrom, ih]; split <;> rfl
@[simp] theorem State.setRegsFrom_pc (k : Nat) (bytes : List Byte) : (s.setRegsFrom k bytes).pc = s.pc := by
  induction bytes generalizing s k with
  | nil => rfl
  | cons v rest ih => simp only [State.setRegsFrom, ih]; split <;> rfl
@[simp] theorem State.setRegsFrom_stack (k : Nat) (bytes : List Byte) : (s.setRegsFrom k bytes).stack = s.stack := by
  induction bytes generalizing s k with
  | nil => rfl
  | cons v rest ih => simp only [State.setRegsFrom, ih]; split <;> rfl
@[simp] theorem State.setRegsFrom_sp (k : Nat) (bytes : List Byte) : (s.setRegsFrom k bytes).sp = s.sp := by
  induction bytes generalizing s k with
  | nil => rfl
  | cons v rest ih => simp only [State.setRegsFrom, ih]; split <;> rfl
@[simp] theorem State.setRegsFrom_dt (k : Nat) (bytes : List Byte) : (s.setRegsFrom k bytes).dt = s.dt := by
  induction bytes generalizing s k with
  | nil => rfl
  | cons v rest ih => simp only [State.setRegsFrom, ih]; split <;> rfl
@[simp] theorem State.setRegsFrom_st (k : Nat) (bytes : List Byte) : (s.setRegsFrom k bytes).st = s.st := by
  induction bytes generalizing s k with
  | nil => rfl
  | cons v rest ih => simp only [State.setRegsFrom, ih]; split <;> rfl
@[simp] theorem State.setRegsFrom_fb (k : Nat) (bytes : List Byte) : (s.setRegsFrom k bytes).fb = s.fb := by
  induction bytes generalizing s k with
  | nil => rfl
  | cons v rest ih => simp only [State.setRegsFrom, ih]; split <;> rfl
@[simp] theorem State.setRegsFrom_keys (k : Nat) (bytes : List Byte) : (s.setRegsFrom k bytes).keys = s.keys := by
  induction bytes generalizing s k with
  | nil => rfl
  | cons v rest ih => simp only [State.setRegsFrom, ih]; split <;> rfl
@[simp] theorem State.setRegsFrom_config (k : Nat) (bytes : List Byte) : (s.setRegsFrom k bytes).config = s.config := by
  induction bytes generalizing s k with
  | nil => rfl
  | cons v rest ih => simp only [State.setRegsFrom, ih]; split <;> rfl
@[simp] theorem State.setRegsFrom_draws (k : Nat) (bytes : List Byte) : (s.setRegsFrom k bytes).draws = s.draws := by
  induction bytes generalizing s k with
  | nil => rfl
  | cons v rest ih => simp only [State.setRegsFrom, ih]; split <;> rfl

/-! ### A draw -/

@[simp] theorem State.drawSprite_mem (x y : Reg) (bytes : List Byte) : (s.drawSprite x y bytes).mem = s.mem := rfl
@[simp] theorem State.drawSprite_index (x y : Reg) (bytes : List Byte) : (s.drawSprite x y bytes).index = s.index := rfl
@[simp] theorem State.drawSprite_pc (x y : Reg) (bytes : List Byte) : (s.drawSprite x y bytes).pc = s.pc := rfl
@[simp] theorem State.drawSprite_stack (x y : Reg) (bytes : List Byte) : (s.drawSprite x y bytes).stack = s.stack := rfl
@[simp] theorem State.drawSprite_sp (x y : Reg) (bytes : List Byte) : (s.drawSprite x y bytes).sp = s.sp := rfl
@[simp] theorem State.drawSprite_dt (x y : Reg) (bytes : List Byte) : (s.drawSprite x y bytes).dt = s.dt := rfl
@[simp] theorem State.drawSprite_st (x y : Reg) (bytes : List Byte) : (s.drawSprite x y bytes).st = s.st := rfl
@[simp] theorem State.drawSprite_keys (x y : Reg) (bytes : List Byte) : (s.drawSprite x y bytes).keys = s.keys := rfl
@[simp] theorem State.drawSprite_config (x y : Reg) (bytes : List Byte) : (s.drawSprite x y bytes).config = s.config := rfl
@[simp] theorem State.drawSprite_draws (x y : Reg) (bytes : List Byte) : (s.drawSprite x y bytes).draws = s.draws := rfl

/-! ### Reads of one byte -/

@[simp] theorem State.readByte_setReg (i : Reg) (v : Byte) (a : Nat) : (s.setReg i v).readByte a = s.readByte a := rfl
@[simp] theorem State.readByte_jump (p : Word) (a : Nat) : (s.jump p).readByte a = s.readByte a := rfl
@[simp] theorem State.readByte_skipIf (c : Bool) (a : Nat) : (s.skipIf c).readByte a = s.readByte a := by cases c <;> rfl
@[simp] theorem State.readByte_setRegsFrom (k : Nat) (bytes : List Byte) (a : Nat) :
    (s.setRegsFrom k bytes).readByte a = s.readByte a := by simp [State.readByte]

/-! ### Reads of one register -/

@[simp] theorem State.reg_writeByte (a : Nat) (v : Byte) (i : Reg) : (s.writeByte a v).reg i = s.reg i := rfl
@[simp] theorem State.reg_jump (p : Word) (i : Reg) : (s.jump p).reg i = s.reg i := rfl
@[simp] theorem State.reg_skipIf (c : Bool) (i : Reg) : (s.skipIf c).reg i = s.reg i := by cases c <;> rfl
@[simp] theorem State.reg_writeBytes (a : Nat) (bytes : List Byte) (i : Reg) :
    (s.writeBytes a bytes).reg i = s.reg i := by simp [State.reg]

end Sys2Proof.Machine
end

