-- ==== Sys2Proof/Laws/Memory.lean ====
section
/-! SUPPORT. Memory as canonical data: a read after a write, the canonical form is kept, and canonical memories that
read alike are equal. -/

namespace Sys2Proof.Machine

variable {c : Config}

/-! ### Reads after a write -/

/-- An address no cell lists reads as unlisted. -/
theorem Memory.read_of_not_listed (m : List Host.Cell) (a : Nat) (h : ∀ p ∈ m, p.1 ≠ a) :
    Memory.read c m a = Memory.unlisted c a := by
  induction m with
  | nil => rfl
  | cons p rest ih =>
    have hk : p.1 ≠ a := h p (by simp)
    simp only [Memory.read, if_neg hk]
    exact ih fun q hq => h q (by simp [hq])

theorem Memory.read_erase (a b : Nat) (m : List Host.Cell) :
    Memory.read c (Memory.erase a m) b = if a = b then Memory.unlisted c b else Memory.read c m b := by
  by_cases hab : a = b
  · rw [if_pos hab]
    refine Memory.read_of_not_listed _ _ fun p hp => ?_
    have := (List.mem_filter.mp hp).2
    simpa [hab] using this
  · rw [if_neg hab]
    induction m with
    | nil => rfl
    | cons p rest ih =>
      by_cases hp : p.1 = a
      · have : Memory.erase a (p :: rest) = Memory.erase a rest := by simp [Memory.erase, hp]
        rw [this, ih]
        simp [Memory.read, hp, hab]
      · have : Memory.erase a (p :: rest) = p :: Memory.erase a rest := by simp [Memory.erase, hp]
        rw [this]
        simp only [Memory.read, ih]

theorem Memory.read_place (a b : Nat) (v : Byte) (m : List Host.Cell) (h : ∀ p ∈ m, p.1 ≠ a) :
    Memory.read c (Memory.place a v m) b = if a = b then v else Memory.read c m b := by
  induction m with
  | nil => rfl
  | cons p rest ih =>
    have hp : p.1 ≠ a := h p (by simp)
    simp only [Memory.place]
    split
    · rfl
    · simp only [Memory.read, ih fun q hq => h q (by simp [hq])]
      by_cases hab : a = b
      · simp [← hab, hp]
      · simp [hab]

theorem Memory.ne_of_mem_erase {a : Nat} {m : List Host.Cell} {p : Host.Cell} (hp : p ∈ Memory.erase a m) : p.1 ≠ a := by
  simpa using (List.mem_filter.mp hp).2

/-- A written byte reads back, and every other address reads as before. -/
theorem Memory.read_write (a : Nat) (v : Byte) (b : Nat) (m : List Host.Cell) :
    Memory.read c (Memory.write c a v m) b = if a = b then v else Memory.read c m b := by
  unfold Memory.write
  split
  · next hv => rw [Memory.read_erase]; by_cases hab : a = b <;> simp_all
  · rw [Memory.read_place a b v _ fun p hp => Memory.ne_of_mem_erase hp, Memory.read_erase]
    by_cases hab : a = b <;> simp [hab]

/-! ### The canonical form is kept -/

theorem Memory.mem_place {a : Nat} {v : Byte} {m : List Host.Cell} {p : Host.Cell}
    (h : p ∈ Memory.place a v m) : p = (a, v) ∨ p ∈ m := by
  induction m with
  | nil => exact .inl (by simpa [Memory.place] using h)
  | cons q rest ih =>
    simp only [Memory.place] at h
    split at h
    · simpa using h
    · rcases List.mem_cons.mp h with rfl | h
      · exact .inr (by simp)
      · exact (ih h).imp_right fun h => List.mem_cons_of_mem _ h

theorem Memory.place_sorted {a : Nat} {v : Byte} {m : List Host.Cell} (hs : m.Pairwise fun p q => p.1 < q.1)
    (h : ∀ p ∈ m, p.1 ≠ a) : (Memory.place a v m).Pairwise fun p q => p.1 < q.1 := by
  induction m with
  | nil => simp [Memory.place]
  | cons q rest ih =>
    obtain ⟨hq, hrest⟩ := List.pairwise_cons.mp hs
    simp only [Memory.place]
    split
    · next hlt =>
      refine List.pairwise_cons.mpr ⟨fun p hp => ?_, hs⟩
      rcases List.mem_cons.mp hp with rfl | hp
      · exact hlt
      · exact Nat.lt_trans hlt (hq p hp)
    · next hge =>
      refine List.pairwise_cons.mpr ⟨fun p hp => ?_, ih hrest fun p hp => h p (by simp [hp])⟩
      rcases Memory.mem_place hp with rfl | hp
      · exact Nat.lt_of_le_of_ne (Nat.le_of_not_lt hge) (h q (by simp))
      · exact hq p hp

/-- Every write inside the address space keeps the canonical form. -/
theorem Memory.write_wf {a : Nat} {v : Byte} {m : List Host.Cell} (ha : a < 4096) (h : Memory.wf c m) :
    Memory.wf c (Memory.write c a v m) := by
  have he : (Memory.erase a m).Pairwise fun p q => p.1 < q.1 := h.1.filter _
  have hm : ∀ p ∈ Memory.erase a m, p ∈ m := fun p hp => (List.mem_filter.mp hp).1
  unfold Memory.write
  split
  · exact ⟨he, fun p hp => h.2 p (hm p hp)⟩
  · next hv =>
    refine ⟨Memory.place_sorted he fun p hp => Memory.ne_of_mem_erase hp, fun p hp => ?_⟩
    rcases Memory.mem_place hp with rfl | hp
    · exact ⟨ha, hv⟩
    · exact h.2 p (hm p hp)

/-- Reset's memory, which lists nothing, is canonical. -/
theorem Memory.nil_wf : Memory.wf c [] := ⟨List.Pairwise.nil, by simp⟩

theorem reset_mem_wf : Memory.wf State.reset.config State.reset.mem := Memory.nil_wf

/-! ### Equal memories are equal data -/

/-- Two canonical memories that read alike at every address are the same list. -/
theorem Memory.ext_of_wf {m n : List Host.Cell} (hm : Memory.wf c m) (hn : Memory.wf c n)
    (h : ∀ a, Memory.read c m a = Memory.read c n a) : m = n := by
  have listed : ∀ {m : List Host.Cell}, Memory.wf c m → ∀ {p}, p ∈ m → Memory.read c m p.1 = p.2 := by
    intro m hm p hp
    induction m with
    | nil => simp at hp
    | cons q rest ih =>
      obtain ⟨hq, hrest⟩ := List.pairwise_cons.mp hm.1
      rcases List.mem_cons.mp hp with rfl | hp
      · simp [Memory.read]
      · have : q.1 ≠ p.1 := Nat.ne_of_lt (hq p hp)
        simp only [Memory.read, if_neg this]
        exact ih ⟨hrest, fun r hr => hm.2 r (by simp [hr])⟩ hp
  have sub : ∀ {m n : List Host.Cell}, Memory.wf c m → Memory.wf c n →
      (∀ a, Memory.read c m a = Memory.read c n a) → ∀ p ∈ m, p ∈ n := by
    intro m n hm hn h p hp
    by_contra hpn
    have hread := listed hm hp
    rw [h p.1] at hread
    by_cases hex : ∃ q ∈ n, q.1 = p.1
    · obtain ⟨q, hq, hqp⟩ := hex
      have := listed hn hq
      rw [hqp, hread] at this
      exact hpn (by rw [show p = q from Prod.ext hqp.symm this]; exact hq)
    · rw [Memory.read_of_not_listed n p.1 fun q hq e => hex ⟨q, hq, e⟩] at hread
      exact (hm.2 p hp).2 hread.symm
  have nodup : ∀ {m : List Host.Cell}, Memory.wf c m → m.Nodup := fun hm =>
    hm.1.imp fun {p q} (hpq : p.1 < q.1) e => absurd (congrArg Prod.fst e) (Nat.ne_of_lt hpq)
  have hperm : m.Perm n := (List.perm_ext_iff_of_nodup (nodup hm) (nodup hn)).mpr fun p =>
    ⟨sub hm hn h p, sub hn hm (fun a => (h a).symm) p⟩
  exact hperm.eq_of_pairwise
    (fun p q _ _ hpq hqp => absurd (show p.1 < p.1 from Nat.lt_trans hpq hqp) (Nat.lt_irrefl _)) hm.1 hn.1

/-! ### At the level of the state -/

/-- Read after write of one byte. -/
theorem State.readByte_writeByte (s : State) (a : Nat) (v : Byte) (b : Nat) :
    (s.writeByte a v).readByte b = if a = b then v else s.readByte b :=
  Memory.read_write a v b s.mem

/-- Writing bytes inside the address space keeps the canonical form. -/
theorem State.writeBytes_wf (s : State) (a : Nat) (bytes : List Byte) (hb : a + bytes.length ≤ 4096)
    (h : Memory.wf s.config s.mem) : Memory.wf s.config (s.writeBytes a bytes).mem := by
  induction bytes generalizing s a with
  | nil => exact h
  | cons v rest ih =>
    rw [List.length_cons] at hb
    exact ih (s.writeByte a v) (a + 1) (by omega) (Memory.write_wf (by omega) h)

/-- Everything a write of consecutive bytes does to memory: each written byte reads back, every other reads as before. -/
theorem State.readByte_writeBytes (s : State) (a : Nat) (bytes : List Byte) (b : Nat) :
    (s.writeBytes a bytes).readByte b =
      if a ≤ b ∧ b < a + bytes.length then bytes.getD (b - a) 0 else s.readByte b := by
  induction bytes generalizing s a with
  | nil => simp [State.writeBytes]
  | cons v rest ih =>
    simp only [State.writeBytes, ih, s.readByte_writeByte, List.length_cons]
    by_cases h1 : a + 1 ≤ b ∧ b < a + 1 + rest.length
    · rw [if_pos h1, if_pos (by omega), show b - a = (b - (a + 1)) + 1 from by omega, List.getD_cons_succ]
    · rw [if_neg h1]
      by_cases hab : a = b
      · rw [if_pos hab, if_pos (by omega), hab, Nat.sub_self, List.getD_cons_zero]
      · rw [if_neg hab, if_neg (by omega)]

end Sys2Proof.Machine
end

