-- ==== Sys2Proof/Laws/Access.lean ====
section
/-! SUPPORT. The bound check, the font check, and everything MemRead, MemWrite and fetch can do. -/

namespace Sys2Proof.Machine

theorem find_accessed_none {a n : Nat} {p : Nat → Bool} (h : ∀ k < n, p (a + k) = false) :
    (accessed a n).find? p = none := by
  simp only [accessed, List.find?_eq_none, List.mem_map, List.mem_range]
  rintro _ ⟨k, hk, rfl⟩
  simp [h k hk]

theorem find_accessed_some {a n k : Nat} {p : Nat → Bool} (hk : k < n) (hp : p (a + k) = true)
    (hlow : ∀ j < k, p (a + j) = false) : (accessed a n).find? p = some (a + k) := by
  rw [accessed, List.find?_eq_some_iff_getElem]
  refine ⟨hp, k, by simpa using hk, by simp, fun j hj => ?_⟩
  simp [hlow j hj]

/-- The bound check passes exactly when every address is inside memory. -/
theorem outOfBounds_eq_none {a n : Nat} : outOfBounds a n = none ↔ n = 0 ∨ a + n ≤ 4096 := by
  constructor
  · intro h
    by_contra hc
    have hmem : a + (n - 1) ∈ accessed a n := by simp [accessed]; omega
    have := List.find?_eq_none.mp h _ hmem
    simp only [decide_eq_true_eq, Config.memSize] at this
    omega
  · intro h
    refine find_accessed_none fun k hk => ?_
    simp only [decide_eq_false_iff_not, Config.memSize]
    omega

/-- When it fails, the reported address is the larger of a and 4096: the lowest accessed address outside memory. -/
theorem outOfBounds_eq_some {a n b : Nat} : outOfBounds a n = some b ↔ n ≠ 0 ∧ 4096 < a + n ∧ b = max a 4096 := by
  by_cases h : n = 0 ∨ a + n ≤ 4096
  · rw [outOfBounds_eq_none.mpr h]
    simp only [reduceCtorEq, false_iff]
    omega
  · have : outOfBounds a n = some (a + (4096 - a)) :=
      find_accessed_some (by omega) (by simp only [decide_eq_true_eq, Config.memSize]; omega)
        fun j hj => by simp only [decide_eq_false_iff_not, Config.memSize]; omega
    rw [this, Option.some.injEq]
    omega

/-- The font check passes when the font is writable or no address is below 0x050. -/
theorem fontHit_eq_none {c : Config} {a n : Nat} : fontHit c a n = none ↔ c.fontWritable = true ∨ n = 0 ∨ 80 ≤ a := by
  unfold fontHit
  split
  · next h => simp [h]
  · next h =>
    simp only [h, Bool.false_eq_true, false_or]
    constructor
    · intro hn
      by_contra hc
      have := List.find?_eq_none.mp hn a (by simp [accessed]; omega)
      simp only [decide_eq_true_eq, Config.fontEnd] at this
      omega
    · intro hn
      refine find_accessed_none fun k hk => ?_
      simp only [decide_eq_false_iff_not, Config.fontEnd]
      omega

/-- When it fails, the reported address is a itself, the lowest written one. -/
theorem fontHit_eq_some {c : Config} {a n b : Nat} :
    fontHit c a n = some b ↔ c.fontWritable = false ∧ n ≠ 0 ∧ a < 80 ∧ b = a := by
  by_cases h : c.fontWritable = true ∨ n = 0 ∨ 80 ≤ a
  · rw [fontHit_eq_none.mpr h]
    simp only [reduceCtorEq, false_iff]
    rintro ⟨h1, h2, h3, -⟩
    rcases h with h | h | h
    · simp [h1] at h
    · exact h2 h
    · omega
  · simp only [not_or, Bool.not_eq_true] at h
    have : (accessed a n).find? (fun b => decide (b < Config.fontEnd)) = some (a + 0) :=
      find_accessed_some (by omega) (by simp only [decide_eq_true_eq, Config.fontEnd]; omega) fun j hj => absurd hj (Nat.not_lt_zero j)
    simp only [fontHit, h.1, Bool.false_eq_true, if_false, this, Nat.add_zero, Option.some.injEq, true_and]
    omega

/-- Everything MemRead does. -/
theorem memRead_eq (kind : AccessKind) (s : State) (a n : Nat) :
    memRead kind s a n =
      if n = 0 ∨ a + n ≤ 4096 then .ok (s.readBytes a n) else .error (.memoryOutOfBounds (max a 4096) kind) := by
  unfold memRead
  split
  · next b h =>
    obtain ⟨h1, h2, rfl⟩ := outOfBounds_eq_some.mp h
    rw [if_neg (by omega)]
  · next h => rw [if_pos (outOfBounds_eq_none.mp h)]

/-- Everything MemWrite does with at least one byte. -/
theorem memWrite_eq (s : State) (a : Nat) (bytes : List Byte) (hne : bytes ≠ []) :
    memWrite s a bytes =
      if 4096 < a + bytes.length then .error (.memoryOutOfBounds (max a 4096) .write)
      else if s.config.fontWritable = false ∧ a < 80 then .error (.fontWrite a)
      else .ok (s.writeBytes a bytes) := by
  have hlen : bytes.length ≠ 0 := by simpa using hne
  unfold memWrite
  split
  · next b h =>
    obtain ⟨h1, h2, rfl⟩ := outOfBounds_eq_some.mp h
    rw [if_pos h2]
  · next h =>
    have := outOfBounds_eq_none.mp h
    rw [if_neg (by omega)]
    split
    · next b h2 =>
      obtain ⟨h3, -, h5, rfl⟩ := fontHit_eq_some.mp h2
      rw [if_pos ⟨h3, h5⟩]
    · next h2 =>
      rw [if_neg]
      rintro ⟨h3, h4⟩
      rcases fontHit_eq_none.mp h2 with h5 | h5 | h5
      · simp [h3] at h5
      · exact hlen h5
      · omega

/-- What a completed MemWrite has done. -/
theorem memWrite_ok {s t : State} {a : Nat} {bytes : List Byte} (h : memWrite s a bytes = .ok t) :
    t = s.writeBytes a bytes ∧ (bytes = [] ∨ a + bytes.length ≤ 4096) ∧
      (bytes = [] ∨ s.config.fontWritable = true ∨ 80 ≤ a) := by
  by_cases hb : bytes = []
  · subst hb
    have h1 : outOfBounds a 0 = none := outOfBounds_eq_none.mpr (.inl rfl)
    have h2 : fontHit s.config a 0 = none := fontHit_eq_none.mpr (.inr (.inl rfl))
    simp only [memWrite, List.length_nil, h1, h2, Except.ok.injEq] at h
    exact ⟨h.symm, .inl rfl, .inl rfl⟩
  · rw [memWrite_eq s a bytes hb] at h
    split at h
    · cases h
    · split at h
      · cases h
      · next h1 h2 =>
        cases h
        refine ⟨rfl, .inr (by omega), .inr ?_⟩
        cases hw : s.config.fontWritable
        · exact .inr (by simp [hw] at h2; omega)
        · exact .inl rfl

/-- The bytes MemRead answers, one by one. -/
theorem State.getD_readBytes (s : State) {a n k : Nat} (hk : k < n) : (s.readBytes a n).getD k 0 = s.readByte (a + k) := by
  simp [State.readBytes, List.getD, hk]

@[simp] theorem State.length_readBytes (s : State) (a n : Nat) : (s.readBytes a n).length = n := by
  simp [State.readBytes]

/-- Everything fetch does. -/
theorem fetch_eq (s : State) :
    fetch s =
      if s.pc.toNat + 1 < 4096 then .ok (s.wordAt s.pc.toNat, s.jump (s.pc + 2))
      else .error (.memoryOutOfBounds (max s.pc.toNat 4096) .fetch) := by
  unfold fetch
  split
  · next b h =>
    obtain ⟨h1, h2, rfl⟩ := outOfBounds_eq_some.mp h
    rw [if_neg (by omega)]
  · next h =>
    have := outOfBounds_eq_none.mp h
    rw [if_pos (by omega)]

end Sys2Proof.Machine
end

