-- ==== Sys2Proof/Laws/Draw.lean ====
section
/-! SUPPORT. Everything the sprite engine does to the framebuffer: it XORs a list of pixels that are all different, so
each pixel and the collision flag depend on the framebuffer before the draw only (spec/43_display.md R117, R119). -/

namespace Sys2Proof.Machine

/-- XOR the listed pixels, one after the other. -/
def xorAll (d : Drawing) (ps : List (Fin 32 × Fin 64)) : Drawing := ps.foldl (fun d p => xorPixel d p.1 p.2) d

theorem xorPixel_fb (d : Drawing) (y y' : Fin 32) (x x' : Fin 64) :
    (xorPixel d y x).fb[y'][x'] = if (y, x) = (y', x') then !d.fb[y][x] else d.fb[y'][x'] := by
  simp only [xorPixel, Fin.getElem_fin, Vector.getElem_set, Prod.mk.injEq, Fin.ext_iff]
  by_cases hy : y.val = y'.val
  · by_cases hx : x.val = x'.val
    · simp [hy, hx]
    · simp [hy, hx]
  · simp [hy]

/-- XOR of different pixels: each listed pixel is flipped once, and a hit is a listed pixel that was on. -/
theorem xorAll_spec (ps : List (Fin 32 × Fin 64)) (hps : ps.Nodup) (d : Drawing) :
    (∀ y x, (xorAll d ps).fb[y][x] = (d.fb[y][x] ^^ decide ((y, x) ∈ ps))) ∧
      ((xorAll d ps).hit = true ↔ d.hit = true ∨ ∃ p ∈ ps, d.fb[p.1][p.2] = true) := by
  induction ps generalizing d with
  | nil => simp [xorAll]
  | cons p rest ih =>
    obtain ⟨hp, hrest⟩ := List.nodup_cons.mp hps
    obtain ⟨h1, h2⟩ := ih hrest (xorPixel d p.1 p.2)
    have hstep : xorAll d (p :: rest) = xorAll (xorPixel d p.1 p.2) rest := rfl
    rw [hstep]
    constructor
    · intro y x
      rw [h1, xorPixel_fb]
      by_cases he : p = (y, x)
      · subst he
        simp [hp]
      · have : (p.1, p.2) ≠ (y, x) := he
        rw [if_neg this]
        simp [List.mem_cons, Ne.symm he]
    · rw [h2]
      have hhit : (xorPixel d p.1 p.2).hit = (d.hit || d.fb[p.1][p.2]) := rfl
      have hsame : ∀ q ∈ rest, (xorPixel d p.1 p.2).fb[q.1][q.2] = d.fb[q.1][q.2] := by
        intro q hq
        rw [xorPixel_fb, if_neg]
        intro he
        exact hp (by rw [show p = q from he]; exact hq)
      simp only [hhit, Bool.or_eq_true, List.exists_mem_cons_iff, or_assoc]
      refine or_congr_right (or_congr_right ⟨?_, ?_⟩)
      · rintro ⟨q, hq, h⟩; exact ⟨q, hq, by rw [← hsame q hq]; exact h⟩
      · rintro ⟨q, hq, h⟩; exact ⟨q, hq, by rw [hsame q hq]; exact h⟩

/-! ### The pixels a sprite touches -/

/-- The pixels the set bits of one row byte touch. -/
def rowTargets (vx vy b : Byte) (r : Nat) : List (Fin 32 × Fin 64) :=
  ((List.range 8).filter fun c => spriteBit b c).map fun c => (pixelRow vy r, pixelColumn vx c)

/-- The pixels the set bits of the rows from offset r on touch. -/
def spriteTargets (vx vy : Byte) : Nat → List Byte → List (Fin 32 × Fin 64)
  | _, [] => []
  | r, b :: rest => rowTargets vx vy b r ++ spriteTargets vx vy (r + 1) rest

theorem drawRow_eq (vx vy b : Byte) (r : Nat) (d : Drawing) : drawRow vx vy b r d = xorAll d (rowTargets vx vy b r) := by
  unfold drawRow rowTargets xorAll
  generalize List.range 8 = cs
  induction cs generalizing d with
  | nil => rfl
  | cons c rest ih =>
    rw [List.foldl_cons, ih]
    by_cases hc : spriteBit b c = true
    · simp [drawBit, hc]
    · simp [drawBit, hc]

theorem drawRows_eq (vx vy : Byte) (r : Nat) (bytes : List Byte) (d : Drawing) :
    drawRows vx vy r bytes d = xorAll d (spriteTargets vx vy r bytes) := by
  induction bytes generalizing r d with
  | nil => rfl
  | cons b rest ih => simp only [drawRows, ih, drawRow_eq, spriteTargets, xorAll, List.foldl_append]

theorem mem_rowTargets {vx vy b : Byte} {r : Nat} {p : Fin 32 × Fin 64} :
    p ∈ rowTargets vx vy b r ↔ ∃ c, c < 8 ∧ spriteBit b c = true ∧ p = (pixelRow vy r, pixelColumn vx c) := by
  simp only [rowTargets, List.mem_map, List.mem_filter, List.mem_range, and_assoc, eq_comm]

theorem mem_spriteTargets {vx vy : Byte} {r : Nat} {bytes : List Byte} {p : Fin 32 × Fin 64} :
    p ∈ spriteTargets vx vy r bytes ↔
      ∃ k c, k < bytes.length ∧ c < 8 ∧ spriteBit (bytes.getD k 0) c = true ∧
        p = (pixelRow vy (r + k), pixelColumn vx c) := by
  induction bytes generalizing r with
  | nil => simp [spriteTargets]
  | cons b rest ih =>
    simp only [spriteTargets, List.mem_append, mem_rowTargets, ih, List.length_cons]
    constructor
    · rintro (⟨c, hc, hb, rfl⟩ | ⟨k, c, hk, hc, hb, rfl⟩)
      · exact ⟨0, c, by omega, hc, by simpa using hb, rfl⟩
      · exact ⟨k + 1, c, by omega, hc, by simpa using hb, by rw [show r + 1 + k = r + (k + 1) from by omega]⟩
    · rintro ⟨k, c, hk, hc, hb, rfl⟩
      cases k with
      | zero => exact .inl ⟨c, hc, by simpa using hb, rfl⟩
      | succ k => exact .inr ⟨k, c, by omega, hc, by simpa using hb, by rw [show r + 1 + k = r + (k + 1) from by omega]⟩

theorem pixelColumn_inj {vx : Byte} {c d : Nat} (hc : c < 64) (hd : d < 64) (h : pixelColumn vx c = pixelColumn vx d) :
    c = d := by
  have := congrArg Fin.val h
  simp only [pixelColumn] at this
  omega

theorem pixelRow_inj {vy : Byte} {r q : Nat} (k : Nat) (hr : k ≤ r ∧ r < k + 32) (hq : k ≤ q ∧ q < k + 32)
    (h : pixelRow vy r = pixelRow vy q) : r = q := by
  have := congrArg Fin.val h
  simp only [pixelRow] at this
  omega

theorem rowTargets_nodup (vx vy b : Byte) (r : Nat) : (rowTargets vx vy b r).Nodup := by
  refine List.Nodup.map_on (fun c hc d hd h => ?_) (List.nodup_range.filter _)
  have hc := List.mem_range.mp (List.mem_filter.mp hc).1
  have hd := List.mem_range.mp (List.mem_filter.mp hd).1
  exact pixelColumn_inj (vx := vx) (by omega) (by omega) (Prod.mk.inj h).2

/-- No two set bits of a sprite of at most 32 rows touch the same pixel (R119). -/
theorem spriteTargets_nodup (vx vy : Byte) (r : Nat) (bytes : List Byte) (h : bytes.length ≤ 32) :
    (spriteTargets vx vy r bytes).Nodup := by
  induction bytes generalizing r with
  | nil => exact List.nodup_nil
  | cons b rest ih =>
    rw [List.length_cons] at h
    refine List.nodup_append.mpr ⟨rowTargets_nodup _ _ _ _, ih (r + 1) (by omega), ?_⟩
    rintro p hp q hq rfl
    obtain ⟨c, -, -, rfl⟩ := mem_rowTargets.mp hp
    obtain ⟨k, d, hk, -, -, he⟩ := mem_spriteTargets.mp hq
    have := pixelRow_inj (vy := vy) r (by omega) (by omega) (Prod.mk.inj he).1
    omega

/-! ### A whole draw -/

/-- Everything a draw of at most 32 rows does: pixels, flag, and the other registers. -/
theorem drawSprite_spec (s : State) (x y : Reg) (bytes : List Byte) (h : bytes.length ≤ 32) :
    (∀ py px, (s.drawSprite x y bytes).pixel py px =
        (s.pixel py px ^^ decide ((py, px) ∈ spriteTargets (s.reg x) (s.reg y) 0 bytes))) ∧
      ((s.drawSprite x y bytes).reg Reg.vf =
        if ∃ p ∈ spriteTargets (s.reg x) (s.reg y) 0 bytes, s.pixel p.1 p.2 = true then 1 else 0) ∧
      ∀ r, r ≠ Reg.vf → (s.drawSprite x y bytes).reg r = s.reg r := by
  obtain ⟨h1, h2⟩ := xorAll_spec _ (spriteTargets_nodup (s.reg x) (s.reg y) 0 bytes h) { fb := s.fb, hit := false }
  simp only [← drawRows_eq] at h1 h2
  refine ⟨fun py px => h1 py px, ?_, fun r hr => ?_⟩
  · have : (s.drawSprite x y bytes).reg Reg.vf =
        collisionFlag (drawRows (s.reg x) (s.reg y) 0 bytes { fb := s.fb, hit := false }).hit := by
      simp [State.drawSprite, State.reg, State.setReg]
    rw [this]
    simp only [Bool.false_eq_true, false_or] at h2
    by_cases hit : ∃ p ∈ spriteTargets (s.reg x) (s.reg y) 0 bytes, s.pixel p.1 p.2 = true
    · rw [if_pos hit, h2.mpr hit]; rfl
    · rw [if_neg hit, Bool.eq_false_iff.mpr fun e => hit (h2.mp e)]; rfl
  · simp only [State.drawSprite, State.reg, State.setReg, Fin.getElem_fin, Vector.getElem_set]
    rw [if_neg]
    exact fun e => hr (Fin.ext e.symm)

end Sys2Proof.Machine
end

