-- ==== Sys2Proof/Laws/Encoding.lean ====
section
/-! SUPPORT. The fields the decoder reads from an encoded word, format by format (spec/30_encoding.md R66, R67), and the
fixed bits of an encoded word. -/

namespace Sys2Proof

/-! ### Format NNN -/

theorem Encode.addr_bit (op : BitVec 4) (nnn : BitVec 12) (i : Nat) :
    (Encode.addr op nnn).getLsbD i = if i < 12 then nnn.getLsbD i else op.getLsbD (i - 12) :=
  BitVec.getLsbD_append

theorem Field.n1_addr (op : BitVec 4) (nnn : BitVec 12) : Field.n1 (Encode.addr op nnn) = op := by
  refine BitVec.eq_of_getLsbD_eq fun i hi => ?_
  rw [Field.n1, BitVec.getLsbD_extractLsb, Encode.addr_bit]
  simp; omega

theorem Field.nnn_addr (op : BitVec 4) (nnn : BitVec 12) : Field.nnn (Encode.addr op nnn) = nnn := by
  refine BitVec.eq_of_getLsbD_eq fun i hi => ?_
  rw [Field.nnn, BitVec.getLsbD_extractLsb, Encode.addr_bit]
  simp [hi]

theorem Encode.addr_fixed (op : BitVec 4) (nnn : BitVec 12) : Encode.addr op nnn &&& 0xF000 = Encode.addr op 0 := by
  refine BitVec.eq_of_getLsbD_eq fun i hi => ?_
  rw [BitVec.getLsbD_and, Encode.addr_bit, Encode.addr_bit]
  interval_cases i <;> simp

/-! ### Formats XNN and X -/

theorem Encode.regByte_bit (op : BitVec 4) (x : Reg) (nn : Byte) (i : Nat) :
    (Encode.regByte op x nn).getLsbD i =
      if i < 8 then nn.getLsbD i
      else if i - 8 < 4 then (BitVec.ofFin x : BitVec 4).getLsbD (i - 8) else op.getLsbD (i - 8 - 4) := by
  refine Eq.trans (BitVec.getLsbD_append (x := op ++ (BitVec.ofFin x : BitVec 4)) (y := nn)) ?_
  rw [BitVec.getLsbD_append]

theorem Field.n1_regByte (op : BitVec 4) (x : Reg) (nn : Byte) : Field.n1 (Encode.regByte op x nn) = op := by
  refine BitVec.eq_of_getLsbD_eq fun i hi => ?_
  rw [Field.n1, BitVec.getLsbD_extractLsb, Encode.regByte_bit, if_neg (by omega), if_neg (by omega),
    show 12 + i - 8 - 4 = i from by omega]
  simp; omega

theorem Field.x_regByte (op : BitVec 4) (x : Reg) (nn : Byte) : Field.x (Encode.regByte op x nn) = x := by
  have h : (Encode.regByte op x nn).extractLsb 11 8 = (BitVec.ofFin x : BitVec 4) := by
    refine BitVec.eq_of_getLsbD_eq fun i hi => ?_
    rw [BitVec.getLsbD_extractLsb, Encode.regByte_bit, if_neg (by omega), if_pos (by omega),
      show 8 + i - 8 = i from by omega]
    simp; omega
  exact congrArg BitVec.toFin h

theorem Field.nn_regByte (op : BitVec 4) (x : Reg) (nn : Byte) : Field.nn (Encode.regByte op x nn) = nn := by
  refine BitVec.eq_of_getLsbD_eq fun i hi => ?_
  rw [Field.nn, BitVec.getLsbD_extractLsb, Encode.regByte_bit, if_pos (by omega)]
  simp; omega

theorem Encode.regByte_fixed (op : BitVec 4) (x : Reg) (nn : Byte) :
    Encode.regByte op x nn &&& 0xF000 = Encode.regByte op 0 0 := by
  refine BitVec.eq_of_getLsbD_eq fun i hi => ?_
  rw [BitVec.getLsbD_and, Encode.regByte_bit, Encode.regByte_bit]
  interval_cases i <;> simp

theorem Encode.reg_fixed (op : BitVec 4) (x : Reg) (nn : Byte) :
    Encode.regByte op x nn &&& 0xF0FF = Encode.regByte op 0 nn := by
  refine BitVec.eq_of_getLsbD_eq fun i hi => ?_
  rw [BitVec.getLsbD_and, Encode.regByte_bit, Encode.regByte_bit]
  interval_cases i <;> simp

/-! ### Formats XY and XYN -/

theorem Encode.regReg_bit (op : BitVec 4) (x y : Reg) (last : BitVec 4) (i : Nat) :
    (Encode.regReg op x y last).getLsbD i =
      if i < 4 then last.getLsbD i
      else if i - 4 < 4 then (BitVec.ofFin y : BitVec 4).getLsbD (i - 4)
      else if i - 4 - 4 < 4 then (BitVec.ofFin x : BitVec 4).getLsbD (i - 4 - 4) else op.getLsbD (i - 4 - 4 - 4) := by
  refine Eq.trans (BitVec.getLsbD_append
    (x := op ++ (BitVec.ofFin x : BitVec 4) ++ (BitVec.ofFin y : BitVec 4)) (y := last)) ?_
  rw [BitVec.getLsbD_append, BitVec.getLsbD_append]

theorem Field.n1_regReg (op : BitVec 4) (x y : Reg) (last : BitVec 4) :
    Field.n1 (Encode.regReg op x y last) = op := by
  refine BitVec.eq_of_getLsbD_eq fun i hi => ?_
  rw [Field.n1, BitVec.getLsbD_extractLsb, Encode.regReg_bit, if_neg (by omega), if_neg (by omega), if_neg (by omega),
    show 12 + i - 4 - 4 - 4 = i from by omega]
  simp; omega

theorem Field.x_regReg (op : BitVec 4) (x y : Reg) (last : BitVec 4) :
    Field.x (Encode.regReg op x y last) = x := by
  have h : (Encode.regReg op x y last).extractLsb 11 8 = (BitVec.ofFin x : BitVec 4) := by
    refine BitVec.eq_of_getLsbD_eq fun i hi => ?_
    rw [BitVec.getLsbD_extractLsb, Encode.regReg_bit, if_neg (by omega), if_neg (by omega), if_pos (by omega),
      show 8 + i - 4 - 4 = i from by omega]
    simp; omega
  exact congrArg BitVec.toFin h

theorem Field.y_regReg (op : BitVec 4) (x y : Reg) (last : BitVec 4) :
    Field.y (Encode.regReg op x y last) = y := by
  have h : (Encode.regReg op x y last).extractLsb 7 4 = (BitVec.ofFin y : BitVec 4) := by
    refine BitVec.eq_of_getLsbD_eq fun i hi => ?_
    rw [BitVec.getLsbD_extractLsb, Encode.regReg_bit, if_neg (by omega), if_pos (by omega),
      show 4 + i - 4 = i from by omega]
    simp; omega
  exact congrArg BitVec.toFin h

theorem Field.n4_regReg (op : BitVec 4) (x y : Reg) (last : BitVec 4) :
    Field.n4 (Encode.regReg op x y last) = last := by
  refine BitVec.eq_of_getLsbD_eq fun i hi => ?_
  rw [Field.n4, BitVec.getLsbD_extractLsb, Encode.regReg_bit, if_pos (by omega)]
  simp; omega

theorem Encode.regReg_fixed (op : BitVec 4) (x y : Reg) (last : BitVec 4) :
    Encode.regReg op x y last &&& 0xF00F = Encode.regReg op 0 0 last := by
  refine BitVec.eq_of_getLsbD_eq fun i hi => ?_
  rw [BitVec.getLsbD_and, Encode.regReg_bit, Encode.regReg_bit]
  interval_cases i <;> simp

theorem Encode.regReg_fixed_high (op : BitVec 4) (x y : Reg) (last : BitVec 4) :
    Encode.regReg op x y last &&& 0xF000 = Encode.regReg op 0 0 0 := by
  refine BitVec.eq_of_getLsbD_eq fun i hi => ?_
  rw [BitVec.getLsbD_and, Encode.regReg_bit, Encode.regReg_bit]
  interval_cases i <;> simp

/-! ### Words and their bytes -/

/-- The two bytes of a word, put together again, are the word (spec/20_memory.md R46). -/
theorem wordOfBytes_split (w : Word) : wordOfBytes (w.extractLsb 15 8) (w.extractLsb 7 0) = w := by
  refine BitVec.eq_of_getLsbD_eq fun i hi => ?_
  refine Eq.trans (BitVec.getLsbD_append (x := w.extractLsb 15 8) (y := w.extractLsb 7 0)) ?_
  rw [BitVec.getLsbD_extractLsb, BitVec.getLsbD_extractLsb]
  by_cases h : i < 8
  · simp [h]
  · rw [if_neg h, show 8 + (i - (7 - 0 + 1)) = i from by omega]
    simp; omega

/-- The word of two bytes as a number (R46). -/
theorem wordOfBytes_toNat (hi lo : Byte) : (wordOfBytes hi lo).toNat = hi.toNat * 256 + lo.toNat := by
  refine Eq.trans (BitVec.toNat_append hi lo) ?_
  rw [← Nat.shiftLeft_add_eq_or_of_lt lo.isLt, Nat.shiftLeft_eq]

/-! ### The selectors as numbers -/

theorem Field.n1_toNat (w : Word) : (Field.n1 w).toNat = w.toNat / 4096 := by
  simp [Field.n1, BitVec.extractLsb_toNat, Nat.shiftRight_eq_div_pow]; omega

theorem Field.n4_toNat (w : Word) : (Field.n4 w).toNat = w.toNat % 16 := by simp [Field.n4, BitVec.extractLsb_toNat]

theorem Field.nn_toNat (w : Word) : (Field.nn w).toNat = w.toNat % 256 := by simp [Field.nn, BitVec.extractLsb_toNat]

/-! ### A word from its fields -/

theorem Encode.addr_fields (w : Word) : Encode.addr (Field.n1 w) (Field.nnn w) = w := by
  refine BitVec.eq_of_getLsbD_eq fun i hi => ?_
  rw [Encode.addr_bit, Field.n1, Field.nnn, BitVec.getLsbD_extractLsb, BitVec.getLsbD_extractLsb]
  by_cases h : i < 12
  · simp [h]
  · rw [if_neg h, show 12 + (i - 12) = i from by omega]
    simp; omega

theorem Encode.regByte_fields (w : Word) : Encode.regByte (Field.n1 w) (Field.x w) (Field.nn w) = w := by
  have hx : (BitVec.ofFin (Field.x w) : BitVec 4) = w.extractLsb 11 8 := rfl
  refine BitVec.eq_of_getLsbD_eq fun i hi => ?_
  rw [Encode.regByte_bit, hx, Field.n1, Field.nn]
  simp only [BitVec.getLsbD_extractLsb]
  interval_cases i <;> simp

theorem Encode.regReg_fields (w : Word) :
    Encode.regReg (Field.n1 w) (Field.x w) (Field.y w) (Field.n4 w) = w := by
  have hx : (BitVec.ofFin (Field.x w) : BitVec 4) = w.extractLsb 11 8 := rfl
  have hy : (BitVec.ofFin (Field.y w) : BitVec 4) = w.extractLsb 7 4 := rfl
  refine BitVec.eq_of_getLsbD_eq fun i hi => ?_
  rw [Encode.regReg_bit, hx, hy, Field.n1, Field.n4]
  simp only [BitVec.getLsbD_extractLsb]
  interval_cases i <;> simp

end Sys2Proof
end

