-- ==== Sys2Proof/Laws/Registers.lean ====
section
/-! SUPPORT. Reads of registers after writes, the register block of FX55 and FX65, and the call stack. -/

namespace Sys2Proof.Machine

variable (s : State)

/-- A written register reads back, and every other register reads as before. -/
theorem State.reg_setReg (i j : Reg) (v : Byte) : (s.setReg i v).reg j = if i = j then v else s.reg j := by
  simp only [State.reg, State.setReg, Fin.getElem_fin, Vector.getElem_set, Fin.ext_iff]

@[simp] theorem State.reg_setReg_same (i : Reg) (v : Byte) : (s.setReg i v).reg i = v := by simp [State.reg_setReg]

theorem State.reg_setReg_ne {i j : Reg} (h : i ≠ j) (v : Byte) : (s.setReg i v).reg j = s.reg j := by
  simp [State.reg_setReg, h]

/-- Result, then flag: VF holds the flag whatever the destination (spec/41_alu.md R92). -/
theorem State.reg_setRegThenFlag (x j : Reg) (result flag : Byte) :
    (s.setRegThenFlag x result flag).reg j = if Reg.vf = j then flag else if x = j then result else s.reg j := by
  simp only [State.setRegThenFlag, State.reg_setReg]

/-- The registers FX55 stores. -/
@[simp] theorem State.length_regsUpTo (x : Reg) : (s.regsUpTo x).length = x.val + 1 := by
  simp [State.regsUpTo]

theorem State.getD_regsUpTo (x : Reg) {k : Nat} (hk : k ≤ x.val) :
    (s.regsUpTo x).getD k 0 = s.reg ⟨k, by omega⟩ := by
  simp [State.regsUpTo, State.reg, List.getD, Nat.lt_succ_of_le hk]

/-- Everything FX65's register writes do. -/
theorem State.reg_setRegsFrom (k : Nat) (bytes : List Byte) (j : Reg) :
    (s.setRegsFrom k bytes).reg j =
      if k ≤ j.val ∧ j.val < k + bytes.length then bytes.getD (j.val - k) 0 else s.reg j := by
  induction bytes generalizing s k with
  | nil => rw [if_neg (by simp)]; rfl
  | cons v rest ih =>
    simp only [State.setRegsFrom, ih, List.length_cons]
    by_cases h1 : k + 1 ≤ j.val ∧ j.val < k + 1 + rest.length
    · rw [if_pos h1, if_pos (by omega), show j.val - k = (j.val - (k + 1)) + 1 from by omega, List.getD_cons_succ]
    · rw [if_neg h1]
      by_cases hk : k = j.val
      · have hj := j.isLt
        rw [dif_pos (by omega), if_pos (by omega), State.reg_setReg, if_pos (Fin.ext hk), hk, Nat.sub_self,
          List.getD_cons_zero]
      · rw [if_neg (by omega)]
        split
        · exact State.reg_setReg_ne _ (fun e => hk (congrArg Fin.val e)) _
        · rfl

/-! ### The call stack -/

/-- A completed push. -/
theorem push_ok {s t : State} {v : Word} (h : push s v = .ok t) :
    ∃ hs : s.sp.val < 16,
      t = { s with stack := s.stack.set s.sp.val v hs, sp := ⟨s.sp.val + 1, by omega⟩ } := by
  unfold push at h
  split at h
  · next hs => cases h; exact ⟨hs, rfl⟩
  · cases h

theorem push_error {s : State} {v : Word} {f : Fault} (h : push s v = .error f) :
    s.sp.val = 16 ∧ f = .stackOverflow s.instrAddr := by
  unfold push at h
  split at h
  · cases h
  · cases h; exact ⟨by omega, rfl⟩

/-- A completed pop. -/
theorem pop_ok {s t : State} {v : Word} (h : pop s = .ok (v, t)) :
    ∃ hs : 0 < s.sp.val,
      v = s.stack[s.sp.val - 1]'(by omega) ∧ t = { s with sp := ⟨s.sp.val - 1, by omega⟩ } := by
  unfold pop at h
  split at h
  · next hs => cases h; exact ⟨hs, rfl, rfl⟩
  · cases h

theorem pop_error {s : State} {f : Fault} (h : pop s = .error f) :
    s.sp.val = 0 ∧ f = .stackUnderflow s.instrAddr := by
  unfold pop at h
  split at h
  · cases h
  · cases h; exact ⟨by omega, rfl⟩

end Sys2Proof.Machine
end

