-- ==== Sys2Proof/Laws/Step.lean ====
section
/-! SUPPORT. Everything one step can do, said once: it runs the decoded instruction, or faults on the fetch or the word. -/

namespace Sys2Proof.Machine

/-- A step with an instruction to run is exec of it with pc advanced. -/
theorem step_of_runs {s : State} {i : Instr} (h : Runs s i) : step s = exec i (s.jump (s.pc + 2)) := by
  simp only [step, fetch_eq, if_pos h.1, h.2]

/-- A step that answers a next state ran one instruction. -/
theorem step_next {s t : State} (h : step s = .next t) : ∃ i, Runs s i ∧ exec i (s.jump (s.pc + 2)) = .next t := by
  unfold step at h
  rw [fetch_eq] at h
  split at h
  · cases h
  · next w u hw =>
    split at hw
    · next hpc =>
      cases hw
      split at h
      · cases h
      · next i hi => exact ⟨i, ⟨hpc, hi⟩, h⟩
    · cases hw

/-- A step that faults did so on the fetch, on the word, or in one instruction. -/
theorem step_fault {s : State} {f : Fault} (h : step s = .fault f) :
    (4096 ≤ s.pc.toNat + 1 ∧ f = .memoryOutOfBounds (max s.pc.toNat 4096) .fetch) ∨
      (s.pc.toNat + 1 < 4096 ∧ ∃ w, decode (s.wordAt s.pc.toNat) = .unknown w ∧ f = .unknownInstruction w) ∨
      ∃ i, Runs s i ∧ exec i (s.jump (s.pc + 2)) = .fault f := by
  unfold step at h
  rw [fetch_eq] at h
  split at h
  · next g hg =>
    split at hg
    · cases hg
    · next hpc =>
      cases hg
      cases h
      exact .inl ⟨by omega, rfl⟩
  · next w u hw =>
    split at hw
    · next hpc =>
      cases hw
      split at h
      · next v hv => cases h; exact .inr (.inl ⟨hpc, v, hv, rfl⟩)
      · next i hi => exact .inr (.inr ⟨i, ⟨hpc, hi⟩, h⟩)
    · cases hw

/-- One word runs as one instruction only. -/
theorem Runs.unique {s : State} {i j : Instr} (hi : Runs s i) (hj : Runs s j) : i = j := by
  have := hi.2.symm.trans hj.2
  exact Decoded.known.inj this

end Sys2Proof.Machine
end

