-- ==== Sys2Proof/Laws/Exec.lean ====
section
/-! SUPPORT. What a conditional meaning has done when it answers a next state. The other meanings answer one on every
state, so that `exec`'s equation says it by itself. -/

namespace Sys2Proof.Machine

variable {s t : State}

/-- 00EE popped an entry and went there. -/
theorem exec_ret_next (h : exec .ret s = .next t) :
    ∃ hs : 0 < s.sp.val, t = { s with sp := ⟨s.sp.val - 1, by omega⟩, pc := s.stack[s.sp.val - 1]'(by omega) } := by
  simp only [exec, execRet] at h
  split at h
  · next v u e =>
    obtain ⟨hs, rfl, rfl⟩ := pop_ok e
    cases h
    exact ⟨hs, rfl⟩
  · cases h

/-- 2NNN pushed pc and went to its address. -/
theorem exec_call_next {nnn : BitVec 12} (h : exec (.call nnn) s = .next t) :
    ∃ hs : s.sp.val < 16,
      t = { s with stack := s.stack.set s.sp.val s.pc hs, sp := ⟨s.sp.val + 1, by omega⟩, pc := addrOf nnn } := by
  simp only [exec, execCall] at h
  split at h
  · next u e =>
    obtain ⟨hs, rfl⟩ := push_ok e
    cases h
    exact ⟨hs, rfl⟩
  · cases h

/-- FX33 wrote its three digits. -/
theorem exec_ldBcd_next {x : Reg} (h : exec (.ldBcd x) s = .next t) :
    t = s.writeBytes s.index.toNat (bcdDigits (s.reg x)) ∧ s.index.toNat + 2 < 4096 ∧
      (s.config.fontWritable = true ∨ 80 ≤ s.index.toNat) := by
  simp only [exec, execLdBcd] at h
  split at h
  · next u e =>
    cases h
    have hne : bcdDigits (s.reg x) ≠ [] := by simp [bcdDigits]
    obtain ⟨rfl, h1, h2⟩ := memWrite_ok e
    exact ⟨rfl, h1.resolve_left hne, h2.resolve_left hne⟩
  · cases h

/-- FX55 wrote its block. -/
theorem exec_storeRegs_next {x : Reg} (h : exec (.storeRegs x) s = .next t) :
    t = s.writeBytes s.index.toNat (s.regsUpTo x) ∧ s.index.toNat + x.val < 4096 ∧
      (s.config.fontWritable = true ∨ 80 ≤ s.index.toNat) := by
  simp only [exec, execStoreRegs] at h
  split at h
  · next u e =>
    cases h
    have hl := s.length_regsUpTo x
    have hne : s.regsUpTo x ≠ [] := fun e => by simp [e] at hl
    obtain ⟨rfl, h1, h2⟩ := memWrite_ok e
    have h1 := h1.resolve_left hne
    rw [hl] at h1
    exact ⟨rfl, h1, h2.resolve_left hne⟩
  · cases h

/-- FX65 loaded its block. -/
theorem exec_loadRegs_next {x : Reg} (h : exec (.loadRegs x) s = .next t) :
    t = s.setRegsFrom 0 (s.readBytes s.index.toNat (x.val + 1)) ∧ s.index.toNat + x.val < 4096 := by
  simp only [exec, execLoadRegs, memRead_eq, State.indexAddr] at h
  split at h
  · next bytes e =>
    split at e
    · next hb => cases e; cases h; exact ⟨rfl, by omega⟩
    · cases e
  · cases h

/-- DXYN drew the bytes at I. -/
theorem exec_drw_next {x y : Reg} {n : BitVec 4} (h : exec (.drw x y n) s = .next t) :
    t = s.drawSprite x y (s.readBytes s.index.toNat n.toNat) ∧ (n.toNat = 0 ∨ s.index.toNat + n.toNat ≤ 4096) := by
  simp only [exec, execDrw, memRead_eq, State.indexAddr] at h
  split at h
  · next bytes e =>
    split at e
    · next hb => cases e; cases h; exact ⟨rfl, hb⟩
    · cases e
  · cases h

theorem keyIndex_ok {v : Byte} {k : Fin 16} (h : keyIndex v = .ok k) : v.toNat = k.val := by
  unfold keyIndex at h
  split at h
  · cases h; rfl
  · cases h

/-- EX9E tested its key. -/
theorem exec_skp_next {x : Reg} (h : exec (.skp x) s = .next t) :
    ∃ k : Fin 16, (s.reg x).toNat = k.val ∧ t = s.skipIf s.keys[k] := by
  simp only [exec, execSkp] at h
  split at h
  · next k e => cases h; exact ⟨k, keyIndex_ok e, rfl⟩
  · cases h

/-- EXA1 tested its key. -/
theorem exec_sknp_next {x : Reg} (h : exec (.sknp x) s = .next t) :
    ∃ k : Fin 16, (s.reg x).toNat = k.val ∧ t = s.skipIf (!s.keys[k]) := by
  simp only [exec, execSknp] at h
  split at h
  · next k e => cases h; exact ⟨k, keyIndex_ok e, rfl⟩
  · cases h

/-- FX0A took the lowest pressed key, or went back. -/
theorem exec_ldVxKey_next {x : Reg} (h : exec (.ldVxKey x) s = .next t) :
    (∃ k, s.firstPressed = some k ∧ t = s.setReg x (BitVec.ofNat 8 k.val)) ∨
      (s.firstPressed = none ∧ t = s.jump (s.pc - 2)) := by
  simp only [exec, execLdVxKey] at h
  split at h
  · next k e => cases h; exact .inl ⟨k, e, rfl⟩
  · next e => cases h; exact .inr ⟨e, rfl⟩

end Sys2Proof.Machine
end

