-- ==== Sys2Proof/Laws/PerInstr.lean ====
section
/-! SUPPORT. Per instruction: its encoding selects its own row of the opcode map (spec/30_encoding.md R70). -/

namespace Sys2Proof.Laws.EncodeSelectsRow

/-- The word of the instruction has the fixed bits of its row. -/
def Statement (i : Instr) : Prop := encode i &&& i.row.mask = i.row.pattern

theorem cls : Statement .cls := rfl
theorem ret : Statement .ret := rfl
theorem jp (nnn : BitVec 12) : Statement (.jp nnn) := (Encode.addr_fixed _ _).trans rfl
theorem call (nnn : BitVec 12) : Statement (.call nnn) := (Encode.addr_fixed _ _).trans rfl
theorem seByte (x : Reg) (nn : Byte) : Statement (.seByte x nn) := (Encode.regByte_fixed _ _ _).trans rfl
theorem sneByte (x : Reg) (nn : Byte) : Statement (.sneByte x nn) := (Encode.regByte_fixed _ _ _).trans rfl
theorem seReg (x y : Reg) : Statement (.seReg x y) := (Encode.regReg_fixed _ _ _ _).trans rfl
theorem ldByte (x : Reg) (nn : Byte) : Statement (.ldByte x nn) := (Encode.regByte_fixed _ _ _).trans rfl
theorem addByte (x : Reg) (nn : Byte) : Statement (.addByte x nn) := (Encode.regByte_fixed _ _ _).trans rfl
theorem ldReg (x y : Reg) : Statement (.ldReg x y) := (Encode.regReg_fixed _ _ _ _).trans rfl
theorem orReg (x y : Reg) : Statement (.orReg x y) := (Encode.regReg_fixed _ _ _ _).trans rfl
theorem andReg (x y : Reg) : Statement (.andReg x y) := (Encode.regReg_fixed _ _ _ _).trans rfl
theorem xorReg (x y : Reg) : Statement (.xorReg x y) := (Encode.regReg_fixed _ _ _ _).trans rfl
theorem addReg (x y : Reg) : Statement (.addReg x y) := (Encode.regReg_fixed _ _ _ _).trans rfl
theorem subReg (x y : Reg) : Statement (.subReg x y) := (Encode.regReg_fixed _ _ _ _).trans rfl
theorem shr (x y : Reg) : Statement (.shr x y) := (Encode.regReg_fixed _ _ _ _).trans rfl
theorem subn (x y : Reg) : Statement (.subn x y) := (Encode.regReg_fixed _ _ _ _).trans rfl
theorem shl (x y : Reg) : Statement (.shl x y) := (Encode.regReg_fixed _ _ _ _).trans rfl
theorem sneReg (x y : Reg) : Statement (.sneReg x y) := (Encode.regReg_fixed _ _ _ _).trans rfl
theorem ldI (nnn : BitVec 12) : Statement (.ldI nnn) := (Encode.addr_fixed _ _).trans rfl
theorem jpV0 (nnn : BitVec 12) : Statement (.jpV0 nnn) := (Encode.addr_fixed _ _).trans rfl
theorem rnd (x : Reg) (nn : Byte) : Statement (.rnd x nn) := (Encode.regByte_fixed _ _ _).trans rfl
theorem drw (x y : Reg) (n : BitVec 4) : Statement (.drw x y n) := (Encode.regReg_fixed_high _ _ _ _).trans rfl
theorem skp (x : Reg) : Statement (.skp x) := (Encode.reg_fixed _ _ _).trans rfl
theorem sknp (x : Reg) : Statement (.sknp x) := (Encode.reg_fixed _ _ _).trans rfl
theorem ldVxDt (x : Reg) : Statement (.ldVxDt x) := (Encode.reg_fixed _ _ _).trans rfl
theorem ldVxKey (x : Reg) : Statement (.ldVxKey x) := (Encode.reg_fixed _ _ _).trans rfl
theorem ldDtVx (x : Reg) : Statement (.ldDtVx x) := (Encode.reg_fixed _ _ _).trans rfl
theorem ldStVx (x : Reg) : Statement (.ldStVx x) := (Encode.reg_fixed _ _ _).trans rfl
theorem addI (x : Reg) : Statement (.addI x) := (Encode.reg_fixed _ _ _).trans rfl
theorem ldFont (x : Reg) : Statement (.ldFont x) := (Encode.reg_fixed _ _ _).trans rfl
theorem ldBcd (x : Reg) : Statement (.ldBcd x) := (Encode.reg_fixed _ _ _).trans rfl
theorem storeRegs (x : Reg) : Statement (.storeRegs x) := (Encode.reg_fixed _ _ _).trans rfl
theorem loadRegs (x : Reg) : Statement (.loadRegs x) := (Encode.reg_fixed _ _ _).trans rfl

end Sys2Proof.Laws.EncodeSelectsRow
end

