-- ==== Sys2Proof/Tests/Slice0.lean ====
section
/-! SUPPORT. Tests of the model, and a witness for every statement that has hypotheses. Expected results are the spec's
own vectors (spec/95_test_vectors.md, V1 to V125 and L1.1 to L1.10) or worked out by hand from the rules cited. -/

namespace Sys2Proof.Tests

open Sys2Proof.Machine

/-! ## Helpers -/

/-- The reset state with some registers set. -/
def start (rs : List (Reg × Byte)) : State := rs.foldl (fun s p => s.setReg p.1 p.2) State.reset

/-- The outcome is a next state of which p is true. -/
def isNext (r : Result) (p : State → Bool) : Bool :=
  match r with
  | .next t => p t
  | .fault _ => false
  | .refused _ => false

/-- The outcome is the fault f. -/
def isFault (r : Result) (f : Fault) : Bool :=
  match r with
  | .next _ => false
  | .fault g => g == f
  | .refused _ => false

/-- One step on the word w, placed at pc, answers a next state of which p is true. -/
def runs (s : State) (w : Nat) (p : State → Bool) : Bool := isNext (step (s.withFetchWord 16 w)) p

/-- One step on the word w, placed at pc, answers the fault f. -/
def stops (s : State) (w : Nat) (f : Fault) : Bool := isFault (step (s.withFetchWord 16 w)) f

theorem isNext_elim {r : Result} {p : State → Bool} (h : isNext r p = true) : ∃ t, r = .next t ∧ p t = true := by
  cases r with
  | next t => exact ⟨t, rfl, h⟩
  | fault f => cases h
  | refused f => cases h

theorem isFault_elim {r : Result} {f : Fault} (h : isFault r f = true) : r = .fault f := by
  cases r with
  | next t => cases h
  | fault g => exact congrArg _ (beq_iff_eq.mp h)
  | refused f => cases h

/-- The registers, the index and the stack pointer of a state used below. -/
def atIndex (i : Word) (rs : List (Reg × Byte)) : State := { start rs with index := i }

/-- The font may be overwritten. -/
def fontOpen (s : State) : State := { s with config := { s.config with fontWritable := true } }

/-- Two entries of the stack set, and a depth. -/
def withDepth (s : State) (d : Fin 17) : State := { s with stack := (s.stack.set 0 0x202).set 15 0x3AB, sp := d }

/-- One key down. -/
def withKey (s : State) (k : Fin 16) : State := { s with keys := s.keys.set k true }

/-! ## Well-formed words (R70, R73)

An ill-formed term of Instr does not exist (R79); an ill-formed word does. One refused word for each row's fixed bits. -/

theorem test_words_of_group_0_refused :
    [0x0000, 0x0123, 0x00E1, 0x00EF, 0x01E0, 0x0FFF].map wordWellFormed = [false, false, false, false, false, false] := by
  decide

theorem test_words_of_groups_5_8_9_refused :
    [0x5121, 0x512F, 0x8128, 0x812D, 0x812F, 0x9121].map wordWellFormed = [false, false, false, false, false, false] := by
  decide

theorem test_words_of_groups_E_F_refused :
    [0xE19F, 0xE1A0, 0xF100, 0xF154, 0xF166, 0xF1FF].map wordWellFormed = [false, false, false, false, false, false] := by
  decide

theorem test_words_of_the_map_accepted :
    ([0x00E0, 0x00EE, 0x1000, 0x5FF0, 0x800E, 0xDFFF, 0xE09E, 0xFF65].all wordWellFormed) = true := by decide

/-! ## Decoding: every constructor, by a word written out from R67 and R70 -/

theorem test_decode_control :
    decode 0b0000000011101110 = .known .ret ∧ decode 0b0001101010111100 = .known (.jp 0xABC) ∧
    decode 0b0010110111101111 = .known (.call 0xDEF) ∧ decode 0b1011000100100011 = .known (.jpV0 0x123) ∧
    decode 0b0011101001111011 = .known (.seByte 0xA 0x7B) ∧ decode 0b0100010111110000 = .known (.sneByte 5 0xF0) ∧
    decode 0b0101000100100000 = .known (.seReg 1 2) ∧ decode 0b1001001100010000 = .known (.sneReg 3 1) := by decide

theorem test_decode_loads_and_logic :
    decode 0b0110101001111011 = .known (.ldByte 0xA 0x7B) ∧ decode 0b0111000100000010 = .known (.addByte 1 2) ∧
    decode 0b1000000100100000 = .known (.ldReg 1 2) ∧ decode 0b1000000100100001 = .known (.orReg 1 2) ∧
    decode 0b1000000100100010 = .known (.andReg 1 2) ∧ decode 0b1000000100100011 = .known (.xorReg 1 2) := by decide

theorem test_decode_arithmetic :
    decode 0b1000000100100100 = .known (.addReg 1 2) ∧ decode 0b1000000100100101 = .known (.subReg 1 2) ∧
    decode 0b1000000100100110 = .known (.shr 1 2) ∧ decode 0b1000000100100111 = .known (.subn 1 2) ∧
    decode 0b1000000100101110 = .known (.shl 1 2) ∧ decode 0b1100001100001111 = .known (.rnd 3 0x0F) := by decide

theorem test_decode_index_and_memory :
    decode 0b1010000100100011 = .known (.ldI 0x123) ∧ decode 0b1111010000011110 = .known (.addI 4) ∧
    decode 0b1111000100101001 = .known (.ldFont 1) ∧ decode 0b1111101000110011 = .known (.ldBcd 0xA) ∧
    decode 0b1111001001010101 = .known (.storeRegs 2) ∧ decode 0b1111111101100101 = .known (.loadRegs 0xF) := by decide

theorem test_decode_display_keys_timers :
    decode 0b0000000011100000 = .known .cls ∧ decode 0b1101000100100101 = .known (.drw 1 2 5) ∧
    decode 0b1110000110011110 = .known (.skp 1) ∧ decode 0b1110001010100001 = .known (.sknp 2) ∧
    decode 0b1111001100000111 = .known (.ldVxDt 3) ∧ decode 0b1111010100001010 = .known (.ldVxKey 5) ∧
    decode 0b1111001000010101 = .known (.ldDtVx 2) ∧ decode 0b1111011000011000 = .known (.ldStVx 6) := by decide

/-- The byte stream: the first byte is the high half (V14, R46); one byte alone is no instruction. -/
theorem test_decode_bytes :
    decodeBytes [0xA1, 0x23, 0x00] = .ok (.ldI 0x123, [0x00]) ∧ decodeBytes [0xF1, 0x00] = .error (.unknown 0xF100) ∧
    decodeBytes [0xA1] = .error .truncated := ⟨rfl, rfl, rfl⟩

theorem test_encode :
    encode (.drw 1 2 5) = 0xD125 ∧ encode (.seByte 0xA 0x7B) = 0x3A7B ∧ encode (.call 0xDEF) = 0x2DEF ∧
    encode (.loadRegs 0xF) = 0xFF65 ∧ encodeBytes (.ldI 0x123) = [0xA1, 0x23] := by decide

theorem test_table_word : decodeTableWord 16 0x8124 = some (.addReg 1 2) ∧ decodeTableWord 16 0x8128 = none := by decide

/-! ## Fetch and faults -/

/-- V1: reset memory is zero past the font, so the first step faults. -/
theorem test_step_of_reset : isFault (step State.reset) (.unknownInstruction 0) = true := by decide
/-- V5. -/
theorem test_unknown_word : stops State.reset 0x8128 (.unknownInstruction 0x8128) = true := by decide
/-- V10: the last word of memory runs. -/
theorem test_fetch_last : runs { State.reset with pc := 0xFFE } 0x1200 (fun t => t.pc == 0x200) = true := by decide
/-- V11. -/
theorem test_fetch_past : isFault (step { State.reset with pc := 0xFFF }) (.memoryOutOfBounds 0x1000 .fetch) = true := by
  decide
/-- V12. -/
theorem test_fetch_far : isFault (step { State.reset with pc := 0x10FE }) (.memoryOutOfBounds 0x10FE .fetch) = true := by
  decide
/-- V13: an odd pc is as good as an even one. -/
theorem test_fetch_odd :
    runs { State.reset with pc := 0x201 } 0x6123 (fun t => t.reg 1 == 0x23 && t.pc == 0x203) = true := by decide
/-- R131. -/
theorem test_codes :
    (Fault.unknownInstruction 0).code = 1 ∧ (Fault.memoryOutOfBounds 0 .read).code = 2 ∧ (Fault.stackOverflow 0).code = 3 ∧
    (Fault.stackUnderflow 0).code = 4 ∧ (Fault.keyIndexOutOfRange 0).code = 5 ∧ (Fault.fontWrite 0).code = 6 ∧
    (HostError.loadOverflow 0).code = 16 ∧ (HostError.setKeyOutOfRange 0).code = 17 := by decide

/-! ## Control transfer -/

/-- V15. -/
theorem test_jp : runs State.reset 0x1ABC (fun t => t.pc == 0xABC) = true := by decide
/-- V21. -/
theorem test_call : runs { State.reset with sp := 15 } 0x2300
    (fun t => t.stack[15] == 0x202 && t.sp == 16 && t.pc == 0x300) = true := by decide
/-- V20. -/
theorem test_call_full : stops { State.reset with sp := 16 } 0x2300 (.stackOverflow 0x200) = true := by decide
/-- V18: the popped entry stays. -/
theorem test_ret : runs { withDepth State.reset 1 with pc := 0x300 } 0x00EE
    (fun t => t.sp == 0 && t.pc == 0x202 && t.stack[0] == 0x202) = true := by decide
/-- V19. -/
theorem test_ret_empty : stops { State.reset with pc := 0x300 } 0x00EE (.stackUnderflow 0x300) = true := by decide
/-- V23. -/
theorem test_jpV0 : runs (start [(0, 0xFF)]) 0xBFFF (fun t => t.pc == 0x10FE) = true := by decide
/-- V24: the base is V0, not VX. -/
theorem test_jpV0_base : runs (start [(5, 0x77)]) 0xB500 (fun t => t.pc == 0x500) = true := by decide
/-- V25, V26. -/
theorem test_seByte : runs (start [(1, 0x12)]) 0x3112 (fun t => t.pc == 0x204) = true ∧
    runs (start [(1, 0x12)]) 0x3113 (fun t => t.pc == 0x202) = true := by decide
/-- V27, V28. -/
theorem test_sneByte : runs (start [(1, 0x12)]) 0x4113 (fun t => t.pc == 0x204) = true ∧
    runs (start [(1, 0x12)]) 0x4112 (fun t => t.pc == 0x202) = true := by decide
/-- V29, V30. -/
theorem test_seReg : runs (start [(2, 0x40), (3, 0x40)]) 0x5230 (fun t => t.pc == 0x204) = true ∧
    runs (start [(2, 0x40), (3, 0x41)]) 0x5230 (fun t => t.pc == 0x202) = true := by decide
/-- V31, V32. -/
theorem test_sneReg : runs (start [(2, 0x40), (3, 0x41)]) 0x9230 (fun t => t.pc == 0x204) = true ∧
    runs (start [(4, 0x40)]) 0x9440 (fun t => t.pc == 0x202) = true := by decide

/-! ## Loads and ALU -/

/-- V35. -/
theorem test_ldByte : runs State.reset 0x6A7B (fun t => t.reg 0xA == 0x7B) = true := by decide
/-- V37: a carry out writes no flag. -/
theorem test_addByte : runs (start [(1, 0xFF), (15, 0x55)]) 0x7102 (fun t => t.reg 1 == 0x01 && t.reg 15 == 0x55) = true := by
  decide
/-- V39. -/
theorem test_ldReg : runs (start [(2, 0x33)]) 0x8120 (fun t => t.reg 1 == 0x33) = true := by decide
/-- V40. -/
theorem test_or : runs (start [(1, 0xF0), (2, 0x3C), (15, 0x55)]) 0x8121
    (fun t => t.reg 1 == 0xFC && t.reg 15 == 0x55) = true := by decide
/-- V41. -/
theorem test_and : runs (start [(1, 0xF0), (2, 0x3C)]) 0x8122 (fun t => t.reg 1 == 0x30) = true := by decide
/-- V42. -/
theorem test_xor : runs (start [(1, 0xF0), (2, 0x3C)]) 0x8123 (fun t => t.reg 1 == 0xCC) = true := by decide
/-- L1.1: 255 has no carry, 256 has. -/
theorem test_add : runs (start [(1, 0xC8), (2, 0x37)]) 0x8124 (fun t => t.reg 1 == 0xFF && t.reg 15 == 0) = true ∧
    runs (start [(1, 0xC8), (2, 0x38)]) 0x8124 (fun t => t.reg 1 == 0 && t.reg 15 == 1) = true := by decide
/-- V49: with X = F the flag wins, here over a result of 0x01 from different operands (V50: 0x03 gives 0). -/
theorem test_add_vf : runs (start [(15, 0xFF), (14, 0x02)]) 0x8FE4 (fun t => t.reg 15 == 1) = true ∧
    runs (start [(15, 0x01), (14, 0x02)]) 0x8FE4 (fun t => t.reg 15 == 0) = true := by decide
/-- V53, V54. -/
theorem test_sub : runs (start [(1, 7), (2, 7)]) 0x8125 (fun t => t.reg 1 == 0 && t.reg 15 == 1) = true ∧
    runs (start [(2, 0xFF)]) 0x8125 (fun t => t.reg 1 == 1 && t.reg 15 == 0) = true := by decide
/-- V55. -/
theorem test_sub_vf : runs (start [(15, 5), (1, 6)]) 0x8F15 (fun t => t.reg 15 == 0) = true := by decide
/-- V59, V63: VY is not read. -/
theorem test_shr : runs (start [(1, 5), (2, 0xFF)]) 0x8126
    (fun t => t.reg 1 == 2 && t.reg 15 == 1 && t.reg 2 == 0xFF) = true ∧
    runs (start [(15, 3)]) 0x8F06 (fun t => t.reg 15 == 1) = true := by decide
/-- V56, V57. -/
theorem test_subn : runs (start [(1, 3), (2, 5)]) 0x8127 (fun t => t.reg 1 == 2 && t.reg 15 == 1) = true ∧
    runs (start [(1, 5), (2, 3)]) 0x8127 (fun t => t.reg 1 == 0xFE && t.reg 15 == 0) = true := by decide
/-- V64, V67. -/
theorem test_shl : runs (start [(1, 0x81)]) 0x810E (fun t => t.reg 1 == 2 && t.reg 15 == 1) = true ∧
    runs (start [(15, 0x40)]) 0x8F0E (fun t => t.reg 15 == 0) = true := by decide
/-- V68, by the meaning for a given random byte. -/
theorem test_rnd : (rndWith 0xAB 3 0x0F State.reset).reg 3 = 0x0B := by decide
/-- V69: with NN = 0 the result does not depend on the random byte. -/
theorem test_rnd_zero : ∀ r : Byte, (rndWith r 3 0 State.reset).reg 3 = 0 := by simp [rndWith]

/-! ## Index and memory -/

/-- V71. -/
theorem test_ldI : runs State.reset 0xA123 (fun t => t.index == 0x123) = true := by decide
/-- V73, V74. -/
theorem test_addI : runs (atIndex 0xFFFF [(1, 2), (15, 0x77)]) 0xF11E
    (fun t => t.index == 0x0001 && t.reg 15 == 0x77) = true ∧
    runs (atIndex 0x0FFF [(1, 1)]) 0xF11E (fun t => t.index == 0x1000) = true := by decide
/-- L1.4, V77: the whole register counts, not its low digit. -/
theorem test_ldFont : runs (start [(1, 0x0A)]) 0xF129 (fun t => t.index == 50) = true ∧
    runs (start [(1, 0xFF)]) 0xF129 (fun t => t.index == 0x04FB) = true := by decide
/-- L1.3. -/
theorem test_ldBcd : runs (atIndex 0x300 [(0, 0xFF)]) 0xF033
    (fun t => t.readBytes 0x300 4 == [2, 5, 5, 0] && t.index == 0x300) = true := by decide
/-- V84. -/
theorem test_storeRegs : runs (atIndex 0x300 [(0, 1), (1, 2), (2, 3), (3, 4)]) 0xF255
    (fun t => t.readBytes 0x300 4 == [1, 2, 3, 0] && t.index == 0x300) = true := by decide
/-- V91: glyph 0 of the default font. -/
theorem test_loadRegs : runs (start [(5, 9)]) 0xF465
    (fun t => t.reg 0 == 0xF0 && t.reg 1 == 0x90 && t.reg 4 == 0xF0 && t.reg 5 == 9) = true := by decide
/-- V92: VF is loaded too. -/
theorem test_loadRegs_all : runs ((atIndex 0x300 []).writeBytes 0x30E [0x1E, 0x1F]) 0xFF65
    (fun t => t.reg 14 == 0x1E && t.reg 15 == 0x1F) = true := by decide
/-- Writing back what an address reads as unlisted takes its cell away again (log 4). -/
theorem test_canonical : ((State.reset.writeByte 0x300 7).writeByte 0x300 0).mem = [] ∧
    ((fontOpen State.reset).writeByte 0 0xF0).mem = [] ∧
    ((State.reset.writeByte 0x301 7).writeByte 0x300 8).mem = [(0x300, 8), (0x301, 7)] := by decide

/-! ## Display -/

/-- V94. -/
theorem test_cls : runs { start [(15, 0x55)] with fb := Framebuffer.clear.set 3 (Vector.replicate 64 true) } 0x00E0
    (fun t => !t.pixel 3 0 && !t.pixel 3 63 && t.reg 15 == 0x55) = true := by decide
/-- V98: both coordinates wrap, and bit 0 is the rightmost. -/
theorem test_drw : runs ((atIndex 0x300 [(0, 70), (1, 33)]).writeBytes 0x300 [0x01]) 0xD011
    (fun t => t.pixel 1 13 && !t.pixel 1 6 && !t.pixel 0 13 && t.reg 15 == 0) = true := by decide
/-- V99: a pixel turned off is a collision, one turned on is not. -/
theorem test_drw_collision : runs { (atIndex 0x300 []).writeBytes 0x300 [0x60] with
      fb := Framebuffer.clear.set 0 ((Vector.replicate 64 false).set 1 true) } 0xD011
    (fun t => !t.pixel 0 1 && t.pixel 0 2 && t.reg 15 == 1) = true := by decide

/-! ## Keys and timers -/

/-- V105, V106. -/
theorem test_skp : runs (withKey (start [(1, 5)]) 5) 0xE19E (fun t => t.pc == 0x204) = true ∧
    runs (start [(1, 5)]) 0xE19E (fun t => t.pc == 0x202) = true := by decide
/-- V107, V108. -/
theorem test_sknp : runs (start [(1, 5)]) 0xE1A1 (fun t => t.pc == 0x204) = true ∧
    runs (withKey (start [(1, 5)]) 5) 0xE1A1 (fun t => t.pc == 0x202) = true := by decide
/-- V110. -/
theorem test_ldVxDt : runs { State.reset with dt := 0x3C } 0xF307 (fun t => t.reg 3 == 0x3C && t.dt == 0x3C) = true := by
  decide
/-- V112, V111. -/
theorem test_ldVxKey : runs { withKey (withKey State.reset 7) 3 with pc := 0x300 } 0xF50A
      (fun t => t.reg 5 == 3 && t.pc == 0x302) = true ∧
    runs { start [(5, 9)] with pc := 0x300 } 0xF50A (fun t => t.reg 5 == 9 && t.pc == 0x300) = true := by decide
/-- V114. -/
theorem test_ldDtVx : runs (start [(2, 0x3C)]) 0xF215 (fun t => t.dt == 0x3C && t.st == 0) = true := by decide
/-- V115. -/
theorem test_ldStVx : runs (start [(2, 5)]) 0xF218 (fun t => t.st == 5 && t.soundActive && t.dt == 0) = true := by decide

/-! ## Host operations -/

/-- V118, V119. -/
theorem test_tick : ({ State.reset with dt := 0xFF, st := 2 }.tickTimers).dt = 0xFE ∧
    ({ State.reset with dt := 0xFF, st := 2 }.tickTimers).st = 1 ∧
    ({ State.reset with st := 1 }.tickTimers).soundActive = false ∧ State.reset.tickTimers.dt = 0 := by decide
/-- V122: the load leaves pc and the registers. -/
theorem test_load : ((perform (.loadProgram [0x12, 0x00]) { start [(1, 7)] with pc := 0x300 }).2.readBytes 0x1FF 3 = [0, 0x12, 0]) ∧
    ((perform (.loadProgram [0x12, 0x00]) { start [(1, 7)] with pc := 0x300 }).2.pc = 0x300) := by decide
/-- V121. -/
theorem test_load_too_large : (perform (.loadProgram (List.replicate 3585 0)) State.reset).1 = .error (.loadOverflow 3585) := by
  have h : (List.replicate 3585 (0 : Byte)).length = 3585 := List.length_replicate
  simp only [perform, performChecked, loadProgram, h]
  rfl
/-- V123, V124. -/
theorem test_setKey : (perform (.setKey 16 true) State.reset).1 = .error (.setKeyOutOfRange 16) ∧
    (perform (.setKey 15 true) State.reset).2.keys[15] = true := by decide
/-- R42: what reset leaves, at the edges of the font. -/
theorem test_reset : State.reset.readByte 0 = 0xF0 ∧ State.reset.readByte 79 = 0x80 ∧ State.reset.readByte 80 = 0 ∧
    State.reset.readByte 0xFFF = 0 ∧ State.reset.pc = 0x200 ∧ State.reset.sp = 0 := by decide

/-! ## Witnesses: states and operands that meet each statement's hypotheses, clause by clause at the boundaries -/

theorem test_witness_ConstructGivesTheResetValues : 80 ≤ 80 ∧ 80 < 4096 ∧ 80 ≤ 4095 ∧ 4095 < 4096 := by decide

/-- A known word at the last address that can be fetched, and one at an odd address. -/
theorem test_witness_StepRunsTheDecodedInstruction :
    ∀ p ∈ [(0xFFE : Word), 0x201], ∃ (s : State) (i : Instr), s.pc = p ∧ s.pc.toNat + 1 < 4096 ∧
      ∃ w : Word, w.toNat = (s.readByte s.pc.toNat).toNat * 256 + (s.readByte (s.pc.toNat + 1)).toNat ∧
        decode w = .known i := by
  intro p hp
  rcases List.mem_pair.mp hp with rfl | rfl
  · exact ⟨State.withFetchWord { State.reset with pc := 0xFFE } 16 0x1200, .jp 0x200, rfl, by decide, 0x1200, by decide⟩
  · exact ⟨State.withFetchWord { State.reset with pc := 0x201 } 16 0x1200, .jp 0x200, rfl, by decide, 0x1200, by decide⟩

theorem test_witness_FetchOutsideMemoryFaults :
    (∃ s : State, s.pc = 0xFFF) ∧ (∃ s : State, s.pc = 0x1000 ∧ 0x1000 ≤ s.pc.toNat) ∧
      ∃ s : State, s.pc = 0xFFFF ∧ 0x1000 ≤ s.pc.toNat :=
  ⟨⟨{ State.reset with pc := 0xFFF }, rfl⟩, ⟨{ State.reset with pc := 0x1000 }, rfl, by decide⟩,
    ⟨{ State.reset with pc := 0xFFFF }, rfl, by decide⟩⟩

theorem test_witness_UnknownWordFaults : ∃ (s : State) (w : Word), s.pc.toNat + 1 < 4096 ∧
    w.toNat = (s.readByte s.pc.toNat).toNat * 256 + (s.readByte (s.pc.toNat + 1)).toNat ∧ wordWellFormed w = false :=
  ⟨State.reset, 0, by decide⟩

theorem test_witness_DecodedWordIsItsEncoding : decode 0xD125 = .known (.drw 1 2 5) := by decide

theorem test_witness_DecodeSelectsTheMatchingRow :
    (∃ r ∈ opcodeMap, (0xD125 : Word) &&& r.mask = r.pattern) ∧ ∀ r ∈ opcodeMap, (0x8128 : Word) &&& r.mask ≠ r.pattern := by
  decide

theorem test_witness_OpcodeRowsAreDisjoint : ∃ (w : Word) (j k : Fin opcodeMap.length),
    w &&& opcodeMap[j].mask = opcodeMap[j].pattern ∧ w &&& opcodeMap[k].mask = opcodeMap[k].pattern :=
  ⟨0x00E0, ⟨0, by decide⟩, ⟨0, by decide⟩, by decide⟩

/-- The two sides of each group's line in R73's table. -/
theorem test_witness_UnknownSpaceByGroup :
    [0x0FFF, 0x00DF, 0x512F, 0x812D, 0x9121, 0xE1A2, 0xF166].map decode =
      [.unknown 0x0FFF, .unknown 0x00DF, .unknown 0x512F, .unknown 0x812D, .unknown 0x9121, .unknown 0xE1A2, .unknown 0xF166] ∧
    [0x1000, 0x00E0, 0x5120, 0x812E, 0x9120, 0xE1A1, 0xF165].map decode =
      [.known (.jp 0), .known .cls, .known (.seReg 1 2), .known (.shl 1 2), .known (.sneReg 1 2), .known (.sknp 1),
        .known (.loadRegs 1)] := by decide

theorem test_witness_FaultLeavesTheStateUnchanged_and_FaultsIgnoreRandAndKeypad :
    step State.reset = .fault (.unknownInstruction 0) := isFault_elim (by decide)

theorem test_witness_ReturnPopsIntoPc : State.reset.sp.val = 0 ∧ 0 < (withDepth State.reset 1).sp.val ∧
    (0 : Fin 16).val + 1 = (withDepth State.reset 1).sp.val ∧ (15 : Fin 16).val + 1 = (withDepth State.reset 16).sp.val := by
  decide

theorem test_witness_CallPushesAndJumps : (withDepth State.reset 16).sp.val = 16 ∧ (withDepth State.reset 15).sp.val < 16 ∧
    State.reset.sp.val < 16 := by decide

theorem test_witness_ReturnAfterCallComesBack : ∃ (s u : State), s.sp.val < 16 ∧
    ∃ t, exec (.call 0x300) s = .next t ∧ u.stack = t.stack ∧ u.sp = t.sp := by
  obtain ⟨t, h, -⟩ := isNext_elim (show isNext (exec (.call 0x300) State.reset) (fun _ => true) = true by decide)
  exact ⟨State.reset, t, by decide, t, h, rfl, rfl⟩

/-- The destination is not VF (AddWrites, Subtractions, Shifts, Random: another register than X). -/
theorem test_witness_not_the_flag : ∃ x : Reg, x ≠ Reg.vf ∧ Reg.vf ≠ x := ⟨0, by decide⟩

theorem test_witness_RandomByteIsMasked : (0x0F : Byte).getLsbD 4 = false := by decide

/-- The three cases of FX33: 0xFFE is the first base past the end, 0xFFD the last inside; 0x04F the last in the font. -/
theorem test_witness_BcdWritesThreeDigits :
    stops (atIndex 0xFFE [(1, 42)]) 0xF133 (.memoryOutOfBounds 0x1000 .write) = true ∧
    runs (atIndex 0xFFD [(1, 42)]) 0xF133 (fun t => t.readBytes 0xFFD 3 == [0, 4, 2]) = true ∧
    stops (atIndex 0x04F [(1, 42)]) 0xF133 (.fontWrite 0x04F) = true ∧
    runs (atIndex 0x050 [(1, 42)]) 0xF133 (fun t => t.readBytes 0x050 3 == [0, 4, 2]) = true ∧
    runs (fontOpen (atIndex 0x04E [(1, 42)])) 0xF133 (fun t => t.readBytes 0x04E 3 == [0, 4, 2]) = true := by decide

theorem test_witness_BcdDigitsAddUp : ∃ s t, exec (.ldBcd 1) s = .next t := by
  obtain ⟨t, h, -⟩ := isNext_elim (show isNext (exec (.ldBcd 1) (atIndex 0x300 [(1, 255)])) (fun _ => true) = true by decide)
  exact ⟨_, t, h⟩

/-- V86, V87, V88, V89 and the font's edge. -/
theorem test_witness_StoreRegistersWritesTheBlock :
    runs (atIndex 0xFFF [(0, 0xAA)]) 0xF055 (fun t => t.readByte 0xFFF == 0xAA) = true ∧
    stops (atIndex 0xFFF []) 0xF155 (.memoryOutOfBounds 0x1000 .write) = true ∧
    stops (atIndex 0x2000 []) 0xF055 (.memoryOutOfBounds 0x2000 .write) = true ∧
    stops State.reset 0xF055 (.fontWrite 0) = true ∧ stops (atIndex 0x04F []) 0xF155 (.fontWrite 0x04F) = true ∧
    runs (atIndex 0x050 [(0, 7)]) 0xF055 (fun t => t.readByte 0x050 == 7) = true ∧
    runs (fontOpen (atIndex 0x000 [(0, 7)])) 0xF055 (fun t => t.readByte 0 == 7) = true := by decide

/-- V93, and the last block that fits. -/
theorem test_witness_LoadRegistersReadsTheBlock :
    stops (atIndex 0xFFE []) 0xF265 (.memoryOutOfBounds 0x1000 .read) = true ∧
    stops (atIndex 0xFFFF []) 0xF065 (.memoryOutOfBounds 0xFFFF .read) = true ∧
    runs ((atIndex 0xFFD []).writeBytes 0xFFD [1, 2, 3]) 0xF265 (fun t => t.reg 0 == 1 && t.reg 2 == 3) = true := by decide

theorem test_witness_StoreThenLoadRestoresRegisters : ∃ s t u : State, exec (.storeRegs 2) s = .next t ∧
    u.index = s.index ∧ Keeps t u .mem := by
  obtain ⟨t, h, -⟩ := isNext_elim (show isNext (exec (.storeRegs 2) (atIndex 0x300 [(1, 5)])) (fun _ => true) = true by decide)
  obtain ⟨rfl, -, -⟩ := exec_storeRegs_next h
  exact ⟨_, _, _, h, State.writeBytes_index .., fun _ => rfl⟩

/-- V100, V101, and a full sprite at the last place that fits. -/
theorem test_witness_DrawFlipsTheCoveredPixels_bounds :
    runs (atIndex 0x5000 [(15, 0x77)]) 0xD010 (fun t => t.reg 15 == 0 && !t.pixel 0 0) = true ∧
    stops (atIndex 0xFFF []) 0xD012 (.memoryOutOfBounds 0x1000 .read) = true ∧
    stops (atIndex 0xFF2 []) 0xD01F (.memoryOutOfBounds 0x1000 .read) = true ∧
    runs (atIndex 0xFF1 []) 0xD01F (fun t => t.reg 15 == 0) = true := by decide

/-- Glyph 0 at (0, 0): covers pixel (0, 0) and not pixel (1, 1); it hits when pixel (0, 0) is on. -/
theorem test_witness_DrawFlipsTheCoveredPixels_pixels :
    SpriteCovers State.reset 0 0 5 0 0 ∧ (¬ SpriteCovers State.reset 0 0 5 1 1) ∧ (¬ SpriteHits State.reset 0 0 5) ∧
      SpriteHits { State.reset with fb := Framebuffer.clear.set 0 ((Vector.replicate 64 false).set 0 true) } 0 0 5 := by
  refine ⟨⟨0, 0, by decide⟩, ?_, ?_, ⟨0, 0, ⟨0, 0, by decide⟩, by decide⟩⟩
  · rintro ⟨r, c, hr, hc, hbit, hx, hy⟩
    interval_cases r <;> interval_cases c <;> revert hbit hx hy <;> decide
  · rintro ⟨py, px, -, h⟩
    simp [State.pixel, State.reset, State.construct, Framebuffer.clear] at h

/-- L1.5: the glyph drawn twice, with VX and VY kept, on a clear screen, the sprite having a set bit. -/
theorem test_witness_DrawingTwiceRestoresThePixels : ∃ s t : State, exec (.drw 0 0 5) s = .next t ∧ t.reg 0 = s.reg 0 ∧
    (∀ py px, s.pixel py px = false) ∧ ∃ py px, SpriteCovers s 0 0 5 py px := by
  obtain ⟨t, h, ht⟩ := isNext_elim
    (show isNext (exec (.drw 0 0 5) State.reset) (fun t => t.reg 0 == State.reset.reg 0) = true by decide)
  refine ⟨State.reset, t, h, by simpa using ht, ?_, 0, 0, 0, 0, by decide⟩
  simp [State.pixel, State.reset, State.construct, Framebuffer.clear]

theorem test_witness_SpriteBitsLandOnDifferentPixels : ∃ (vx vy : Byte) (r c q d : Nat), r < 15 ∧ c < 8 ∧ q < 15 ∧ d < 8 ∧
    pixelRow vy r = pixelRow vy q ∧ pixelColumn vx c = pixelColumn vx d := ⟨60, 30, 14, 7, 14, 7, by decide⟩

/-- V109 at 16, and key 15. -/
theorem test_witness_KeySkipsTestTheKey :
    stops (start [(1, 16)]) 0xE19E (.keyIndexOutOfRange 16) = true ∧
    stops (start [(1, 16)]) 0xE1A1 (.keyIndexOutOfRange 16) = true ∧
    runs (withKey (start [(1, 15)]) 15) 0xE19E (fun t => t.pc == 0x204) = true := by decide

/-- Key 15 alone (V113), key 3 below key 7, and no key. -/
theorem test_witness_KeyWaitTakesTheLowestKey :
    ((withKey State.reset 15).keys[(15 : Fin 16)] = true ∧ ∀ j : Fin 16, j < 15 → (withKey State.reset 15).keys[j] = false) ∧
    ((withKey (withKey State.reset 7) 3).keys[(3 : Fin 16)] = true ∧
      ∀ j : Fin 16, j < 3 → (withKey (withKey State.reset 7) 3).keys[j] = false) ∧
    ∀ k : Fin 16, State.reset.keys[k] = false := by decide

theorem test_witness_KeyWaitWithoutKeyIsAFixedPoint : ∃ s : State, Runs s (.ldVxKey 5) ∧ ∀ k : Fin 16, s.keys[k] = false :=
  ⟨State.reset.withFetchWord 16 0xF50A, ⟨by decide, by decide⟩, by decide⟩

/-- Steps that change each part the whole-machine rules speak of, one for each instruction named in them. -/
theorem test_witness_a_step_changes :
    runs State.reset 0x2300 (fun t => t.stack != State.reset.stack && t.sp != 0) = true ∧
    runs (withDepth State.reset 1) 0x00EE (fun t => t.sp != 1) = true ∧
    runs State.reset 0xD005 (fun t => t.pixel 0 0) = true ∧
    runs (start [(2, 7)]) 0xF215 (fun t => t.dt != 0) = true ∧
    runs (start [(2, 7)]) 0xF218 (fun t => t.st != 0) = true ∧
    runs State.reset 0xA300 (fun t => t.index != 0) = true ∧
    runs (start [(2, 7)]) 0xF21E (fun t => t.index != 0) = true ∧
    runs (start [(2, 7)]) 0xF229 (fun t => t.index != 0) = true ∧
    runs (atIndex 0x300 [(0, 7)]) 0xF055 (fun t => t.readByte 0x300 != 0) = true ∧
    runs (atIndex 0x300 [(0, 7)]) 0xF033 (fun t => t.readByte 0x302 != 0) = true ∧
    runs State.reset 0x6F01 (fun t => t.reg 15 != 0) = true := by decide

/-- The same in the form the rules' hypotheses have. -/
theorem test_witness_step_next_with_change : ∃ s t, step s = .next t ∧ t.stack ≠ s.stack ∧ t.sp ≠ s.sp := by
  obtain ⟨t, h, ht⟩ := isNext_elim (show isNext (step (State.reset.withFetchWord 16 0x2300))
    (fun t => t.stack != (State.reset.withFetchWord 16 0x2300).stack && t.sp != (State.reset.withFetchWord 16 0x2300).sp)
      = true by decide)
  simp only [Bool.and_eq_true, bne_iff_ne] at ht
  exact ⟨_, t, h, ht⟩

theorem test_witness_OtherInstructionsLeavePcAtNext : ∃ s t i, Runs s i ∧ step s = .next t ∧ mayMovePc i = false := by
  obtain ⟨t, h, -⟩ := isNext_elim (show isNext (step (State.reset.withFetchWord 16 0x6123)) (fun _ => true) = true by decide)
  exact ⟨_, t, .ldByte 1 0x23, ⟨by decide, by decide⟩, h, rfl⟩

/-- A step of a store with I at the address i, the next instruction being the word at 0x202: what memory reads as
afterwards is the `b` of the statement. -/
def storeOver (i : Word) (rs : List (Reg × Byte)) (w : Nat) : State := (atIndex i rs).withFetchWord 16 w

/-- FX55 at the next address; FX55 of V0 alone inside the next word, leaving its first byte; FX55 from before the next
word, over its own second byte. -/
theorem test_witness_StoreIsVisibleToTheNextFetch_registers :
    (∀ p ∈ [((0x202 : Word), 0xF155, (1 : Reg)), (0x203, 0xF055, 0), (0x201, 0xF255, 2)],
      Runs (storeOver p.1 [(0, 0x61), (1, 0x62), (2, 0x63)] p.2.1) (.storeRegs p.2.2) ∧
        (storeOver p.1 [] p.2.1).pc.toNat + 3 < 4096) ∧
    runs (storeOver 0x202 [(0, 0x61), (1, 0x62)] 0xF155) 0xF155 (fun t => t.readBytes 0x202 2 == [0x61, 0x62]) = true ∧
    runs (storeOver 0x203 [(0, 0x61)] 0xF055) 0xF055 (fun t => t.readBytes 0x202 2 == [0x00, 0x61]) = true ∧
    runs (storeOver 0x201 [(0, 0x61), (1, 0x62), (2, 0x63)] 0xF255) 0xF255
      (fun t => t.readBytes 0x201 3 == [0x61, 0x62, 0x63]) = true := by
  refine ⟨?_, by decide⟩
  intro p hp
  simp only [List.mem_cons, List.not_mem_nil, or_false] at hp
  rcases hp with rfl | rfl | rfl <;> exact ⟨⟨by decide, by decide⟩, by decide⟩

/-- FX33 with its hundreds over the last byte of the next word: 0x0001 is unknown, so the next step faults with it. -/
theorem test_witness_StoreIsVisibleToTheNextFetch_digits :
    Runs (storeOver 0x203 [(1, 123)] 0xF133) (.ldBcd 1) ∧
    runs (storeOver 0x203 [(1, 123)] 0xF133) 0xF133
      (fun t => t.readBytes 0x202 2 == [0x00, 0x01] && isFault (step t) (.unknownInstruction 0x0001)) = true ∧
    wordWellFormed 0x0001 = false := ⟨⟨by decide, by decide⟩, by decide, by decide⟩

/-- All the hypotheses of its FX55 branch together. -/
theorem test_witness_StoreIsVisibleToTheNextFetch : ∃ s t i, ∃ (b : Nat → Byte) (w : Word), step s = .next t ∧
    s.pc.toNat + 3 < 4096 ∧ Runs s (.storeRegs 1) ∧ (∀ k : Reg, k ≤ 1 → b (s.index.toNat + k.val) = s.reg k) ∧
    (∀ a, a < s.index.toNat ∨ s.index.toNat + 1 < a → b a = s.readByte a) ∧
    w.toNat = (b (s.pc.toNat + 2)).toNat * 256 + (b (s.pc.toNat + 3)).toNat ∧ decode w = .known i := by
  obtain ⟨t, h, -⟩ := isNext_elim
    (show isNext (step (storeOver 0x202 [(0, 0x61), (1, 0x23)] 0xF155)) (fun _ => true) = true by decide)
  refine ⟨_, t, .ldByte 1 0x23, fun a => if a = 0x202 then 0x61 else if a = 0x203 then 0x23 else
    (storeOver 0x202 [(0, 0x61), (1, 0x23)] 0xF155).readByte a, 0x6123, h, by decide, ⟨by decide, by decide⟩,
    by decide, fun a ha => ?_, by decide, by decide⟩
  have hi : (storeOver 0x202 [(0, 0x61), (1, 0x23)] 0xF155).index.toNat = 0x202 := by decide
  rw [hi] at ha
  beta_reduce
  rw [if_neg (by omega), if_neg (by omega)]

/-- All the hypotheses of its FX33 branch together, the word being unknown. -/
theorem test_witness_StoreIsVisibleToTheNextFetch_bcd : ∃ s t, ∃ (b : Nat → Byte) (w : Word), step s = .next t ∧
    s.pc.toNat + 3 < 4096 ∧ Runs s (.ldBcd 1) ∧ (b s.index.toNat).toNat = (s.reg 1).toNat / 100 ∧
    (b (s.index.toNat + 1)).toNat = (s.reg 1).toNat / 10 % 10 ∧ (b (s.index.toNat + 2)).toNat = (s.reg 1).toNat % 10 ∧
    (∀ a, a < s.index.toNat ∨ s.index.toNat + 2 < a → b a = s.readByte a) ∧
    w.toNat = (b (s.pc.toNat + 2)).toNat * 256 + (b (s.pc.toNat + 3)).toNat ∧ wordWellFormed w = false := by
  obtain ⟨t, h, -⟩ := isNext_elim
    (show isNext (step (storeOver 0x202 [(1, 123)] 0xF133)) (fun _ => true) = true by decide)
  refine ⟨_, t, fun a => if a = 0x202 then 1 else if a = 0x203 then 2 else if a = 0x204 then 3 else
    (storeOver 0x202 [(1, 123)] 0xF133).readByte a, 0x0102, h, by decide, ⟨by decide, by decide⟩,
    by decide, by decide, by decide, fun a ha => ?_, by decide, by decide⟩
  have hi : (storeOver 0x202 [(1, 123)] 0xF133).index.toNat = 0x202 := by decide
  rw [hi] at ha
  beta_reduce
  rw [if_neg (by omega), if_neg (by omega), if_neg (by omega)]

/-- A state of the invariants whose step answers a next state of theirs at pc's highest value (V23). -/
theorem test_witness_StepKeepsMemoryAndFont_and_StepKeepsPcBounded : ∃ s t, Memory.wf s.config s.mem ∧ PcBounded s ∧
    step s = .next t ∧ t.pc = 0x10FE := by
  obtain ⟨t, h, ht⟩ := isNext_elim
    (show isNext (step ((start [(0, 0xFF)]).withFetchWord 16 0xBFFF)) (fun t => t.pc == 0x10FE) = true by decide)
  exact ⟨_, t, by decide, ⟨by decide, by decide⟩, h, by simpa using ht⟩

theorem test_witness_font_intact : ∃ s t, StateInv s ∧ step s = .next t := by
  obtain ⟨t, h, -⟩ := isNext_elim (show isNext (step (State.reset.withFetchWord 16 0x6123)) (fun _ => true) = true by decide)
  exact ⟨_, t, ⟨by decide, fun _ => by decide⟩, h⟩

theorem test_witness_HostOperationsKeepMemoryAndFont : StateInv State.reset ∧
    RestoresSnapshots [.snapshot, .loadProgram [0x12, 0x00], .step, .restore State.reset.snapshot] := by
  have h : StateInv State.reset := ⟨reset_mem_wf, fun _ => by decide⟩
  refine ⟨h, fun c hc => ⟨State.reset, h, ?_⟩⟩
  simp only [List.mem_cons, List.not_mem_nil, reduceCtorEq, HostOp.restore.injEq, false_or, or_false] at hc
  exact hc.symm

/-- At reset's pc, and at the last address a jump to itself fits. -/
theorem test_witness_IdleEndIsAFixedPoint : IdleEnd (State.reset.withFetchWord 16 0x1200) 0x200 ∧
    IdleEnd (State.withFetchWord { State.reset with pc := 0xFFE } 16 0x1FFE) 0xFFE :=
  ⟨⟨rfl, by decide, by decide⟩, rfl, by decide, by decide⟩

theorem test_witness_LoadProgramCopiesTheImage : 3584 < (List.replicate 3585 (0 : Byte)).length ∧
    (List.replicate 3584 (0 : Byte)).length ≤ 3584 ∧ 3583 < (List.replicate 3584 (0 : Byte)).length := by
  simp only [List.length_replicate]; decide

theorem test_witness_SetKeySetsOneKey : 16 ≤ 16 ∧ 15 < 16 := by decide

end Sys2Proof.Tests
end

/-! PROOFS. Decode and the opcode map (spec/30_encoding.md R64, R70): a decoded instruction's row selects the word, a
word that decodes to Unknown is selected by no row, and no two rows select the same word. -/

namespace Sys2Proof

/-! ### From the fields of a word to its masked bits -/

theorem Field.and_F000 {w : Word} (a : BitVec 4) (ha : (Field.n1 w).toNat = a.toNat) :
    w &&& 0xF000 = Encode.addr a 0 := by
  rw [← BitVec.eq_of_toNat_eq ha]
  exact Encode.addr_fields w ▸ (Encode.addr_fixed _ _).trans (by rw [Field.n1_addr])

theorem Field.and_F00F {w : Word} (a b : BitVec 4) (ha : (Field.n1 w).toNat = a.toNat)
    (hb : (Field.n4 w).toNat = b.toNat) : w &&& 0xF00F = Encode.regReg a 0 0 b := by
  rw [← BitVec.eq_of_toNat_eq ha, ← BitVec.eq_of_toNat_eq hb]
  exact Encode.regReg_fields w ▸ (Encode.regReg_fixed _ _ _ _).trans (by rw [Field.n1_regReg, Field.n4_regReg])

theorem Field.and_F0FF {w : Word} (a : BitVec 4) (b : Byte) (ha : (Field.n1 w).toNat = a.toNat)
    (hb : (Field.nn w).toNat = b.toNat) : w &&& 0xF0FF = Encode.regByte a 0 b := by
  rw [← BitVec.eq_of_toNat_eq ha, ← BitVec.eq_of_toNat_eq hb]
  exact Encode.regByte_fields w ▸ (Encode.reg_fixed _ _ _).trans (by rw [Field.n1_regByte, Field.nn_regByte])

/-! ### From a row that selects a word to the word's fields -/

/-- A field whose bits the mask all keeps is the pattern's field. -/
theorem extractLsb_eq_of_and_eq {w m p : Word} {hi lo : Nat} (hs : w &&& m = p)
    (hm : m.extractLsb hi lo = BitVec.allOnes _) : w.extractLsb hi lo = p.extractLsb hi lo := by
  rw [← hs, BitVec.extractLsb_and, hm, BitVec.and_allOnes]

/-- Every row fixes the primary selector (R71). -/
theorem OpRow.n1_eq {w : Word} {r : OpRow} (hr : r ∈ opcodeMap) (hs : w &&& r.mask = r.pattern) :
    Field.n1 w = Field.n1 r.pattern :=
  extractLsb_eq_of_and_eq hs ((by decide : ∀ r ∈ opcodeMap, r.mask.extractLsb 15 12 = BitVec.allOnes _) r hr)

/-- A word of group a whose sub-function is none of the group's codes is selected by no row. -/
theorem unselected_of_notMem {w : Word} (hi lo : Nat) (a : BitVec 4) (codes : List Nat)
    (hrows : ∀ r ∈ opcodeMap, Field.n1 r.pattern = a →
      r.mask.extractLsb hi lo = BitVec.allOnes _ ∧ (r.pattern.extractLsb hi lo).toNat ∈ codes)
    (ha : (Field.n1 w).toNat = a.toNat) (hw : (w.extractLsb hi lo).toNat ∉ codes) :
    ∀ r ∈ opcodeMap, w &&& r.mask ≠ r.pattern := by
  intro r hr hs
  obtain ⟨hmask, hcode⟩ := hrows r hr ((OpRow.n1_eq hr hs).symm.trans (BitVec.eq_of_toNat_eq ha))
  rw [← extractLsb_eq_of_and_eq hs hmask] at hcode
  exact hw hcode

/-! ### What decode answers -/

/-- An answer that agrees with the map: a known instruction's row selects w; w itself is unknown, and no row selects it. -/
def Decoded.Fits (w : Word) : Decoded → Prop
  | .known i => w &&& i.row.mask = i.row.pattern
  | .unknown v => v = w ∧ ∀ r ∈ opcodeMap, w &&& r.mask ≠ r.pattern

theorem decodeAlu_fits {w : Word} (h : (Field.n1 w).toNat = 0x8) : (decodeAlu w).Fits w := by
  unfold decodeAlu
  split
  next k => exact Field.and_F00F 8 0 h k
  next k => exact Field.and_F00F 8 1 h k
  next k => exact Field.and_F00F 8 2 h k
  next k => exact Field.and_F00F 8 3 h k
  next k => exact Field.and_F00F 8 4 h k
  next k => exact Field.and_F00F 8 5 h k
  next k => exact Field.and_F00F 8 6 h k
  next k => exact Field.and_F00F 8 7 h k
  next k => exact Field.and_F00F 8 0xE h k
  next =>
    exact ⟨rfl, unselected_of_notMem 3 0 8 [0, 1, 2, 3, 4, 5, 6, 7, 0xE] (by decide) h (by simp_all [Field.n4])⟩

theorem decodeMisc_fits {w : Word} (h : (Field.n1 w).toNat = 0xF) : (decodeMisc w).Fits w := by
  unfold decodeMisc
  split
  next k => exact Field.and_F0FF 0xF 0x07 h k
  next k => exact Field.and_F0FF 0xF 0x0A h k
  next k => exact Field.and_F0FF 0xF 0x15 h k
  next k => exact Field.and_F0FF 0xF 0x18 h k
  next k => exact Field.and_F0FF 0xF 0x1E h k
  next k => exact Field.and_F0FF 0xF 0x29 h k
  next k => exact Field.and_F0FF 0xF 0x33 h k
  next k => exact Field.and_F0FF 0xF 0x55 h k
  next k => exact Field.and_F0FF 0xF 0x65 h k
  next =>
    exact ⟨rfl, unselected_of_notMem 7 0 0xF [0x07, 0x0A, 0x15, 0x18, 0x1E, 0x29, 0x33, 0x55, 0x65] (by decide) h
      (by simp_all [Field.nn])⟩

theorem decode_fits (w : Word) : (decode w).Fits w := by
  unfold decode
  split
  next h =>
    split_ifs with hcls hret
    · subst hcls; rfl
    · subst hret; rfl
    · exact ⟨rfl, unselected_of_notMem 15 0 0 [0x00E0, 0x00EE] (by decide) h
        (by simpa [← BitVec.toNat_inj, Nat.mod_eq_of_lt w.isLt] using And.intro hcls hret)⟩
  next h => exact Field.and_F000 1 h
  next h => exact Field.and_F000 2 h
  next h => exact Field.and_F000 3 h
  next h => exact Field.and_F000 4 h
  next h =>
    split_ifs with h4
    · exact Field.and_F00F 5 0 h (congrArg BitVec.toNat h4)
    · exact ⟨rfl, unselected_of_notMem 3 0 5 [0] (by decide) h (by simpa [← BitVec.toNat_inj, Field.n4] using h4)⟩
  next h => exact Field.and_F000 6 h
  next h => exact Field.and_F000 7 h
  next h => exact decodeAlu_fits h
  next h =>
    split_ifs with h4
    · exact Field.and_F00F 9 0 h (congrArg BitVec.toNat h4)
    · exact ⟨rfl, unselected_of_notMem 3 0 9 [0] (by decide) h (by simpa [← BitVec.toNat_inj, Field.n4] using h4)⟩
  next h => exact Field.and_F000 0xA h
  next h => exact Field.and_F000 0xB h
  next h => exact Field.and_F000 0xC h
  next h => exact Field.and_F000 0xD h
  next h =>
    split_ifs with hskp hsknp
    · exact Field.and_F0FF 0xE 0x9E h (congrArg BitVec.toNat hskp)
    · exact Field.and_F0FF 0xE 0xA1 h (congrArg BitVec.toNat hsknp)
    · exact ⟨rfl, unselected_of_notMem 7 0 0xE [0x9E, 0xA1] (by decide) h
        (by simpa [← BitVec.toNat_inj, Field.nn] using And.intro hskp hsknp)⟩
  next h => exact decodeMisc_fits h
  next => have hlt := (Field.n1 w).isLt; simp only [imp_false] at *; omega

/-! ### The rows of the map -/

theorem Instr.row_mem_opcodeMap (i : Instr) : i.row ∈ opcodeMap := by cases i <;> exact of_decide_eq_true rfl

/-- Two rows that select one word agree on the bits both masks keep; only a row and itself do (R72). -/
theorem opcodeMap_row_unique {w : Word} {r q : OpRow} (hr : r ∈ opcodeMap) (hq : q ∈ opcodeMap)
    (hwr : w &&& r.mask = r.pattern) (hwq : w &&& q.mask = q.pattern) : r = q := by
  have hcommon : r.pattern &&& q.mask = q.pattern &&& r.mask := by
    rw [← hwr, ← hwq, BitVec.and_assoc, BitVec.and_assoc, BitVec.and_comm r.mask]
  exact (by decide : ∀ r ∈ opcodeMap, ∀ q ∈ opcodeMap, r.pattern &&& q.mask = q.pattern &&& r.mask → r = q)
    r hr q hq hcommon

/-- Settles O8: decode's answer fits the map (`decode_fits`), and a word's row is unique. -/
theorem decodeSelectsTheMatchingRow : Obligations.DecodeSelectsTheMatchingRow := by
  intro w
  have hfits := decode_fits w
  cases hd : decode w with
  | known i =>
    rw [hd] at hfits
    have hi := i.row_mem_opcodeMap
    exact ⟨fun r hr hs => ⟨i, rfl, opcodeMap_row_unique hi hr hfits hs⟩, fun hnone => absurd hfits (hnone i.row hi)⟩
  | unknown v =>
    rw [hd] at hfits
    obtain ⟨rfl, hnone⟩ := hfits
    exact ⟨fun r hr hs => absurd hs (hnone r hr), fun _ => rfl⟩

end Sys2Proof

/-! PROOFS. The jumps and the register skips (spec/40_control_flow.md R82, R84 to R88): each answers a `State.jump` or a
`State.skipIf`, which move pc and nothing else. -/

namespace Sys2Proof.Machine

/-! ### What moving pc leaves unchanged -/

theorem KeepsAllBut.refl (changed : List Part) (s : State) : KeepsAllBut changed s s := by
  intro p _
  cases p with
  | mem | regs => exact fun _ => rfl
  | _ => rfl

theorem State.jump_keepsAllBut_pc (s : State) (target : Word) : KeepsAllBut [.pc] s (s.jump target) := by
  intro p hp
  cases p with
  | pc => exact absurd (List.mem_singleton_self _) hp
  | mem => exact s.readByte_jump target
  | regs => exact s.reg_jump target
  | _ => rfl

/-- A skip that is not taken leaves pc too. -/
theorem State.skipIf_keepsAllBut_pc (s : State) (c : Bool) : KeepsAllBut [.pc] s (s.skipIf c) := by
  cases c with
  | true => exact s.jump_keepsAllBut_pc (s.pc + 2)
  | false => exact KeepsAllBut.refl _ s

/-! ### Jump targets as numbers -/

@[simp] theorem toNat_addrOf (nnn : BitVec 12) : (addrOf nnn).toNat = nnn.toNat :=
  BitVec.toNat_setWidth_of_le (by decide)

/-- The sum is at most 0xFF + 0xFFF, so it never wraps (R84). -/
theorem toNat_v0Target (s : State) (nnn : BitVec 12) : (v0Target s nnn).toNat = (s.reg 0).toNat + nnn.toNat := by
  have hbase : ((s.reg Reg.v0).setWidth 16).toNat = (s.reg 0).toNat := BitVec.toNat_setWidth_of_le (by decide)
  have hv0 := (s.reg 0).isLt
  have hnnn := nnn.isLt
  rw [v0Target, BitVec.toNat_add_of_lt (by rw [hbase, toNat_addrOf]; omega), hbase, toNat_addrOf]

/-! ### The instructions -/

theorem exec_jp (nnn : BitVec 12) (s : State) : exec (.jp nnn) s = .next (s.jump (addrOf nnn)) := rfl

theorem exec_jpV0 (nnn : BitVec 12) (s : State) : exec (.jpV0 nnn) s = .next (s.jump (v0Target s nnn)) := rfl

theorem exec_seByte (x : Reg) (nn : Byte) (s : State) : exec (.seByte x nn) s = .next (s.skipIf (s.reg x == nn)) := rfl

theorem exec_sneByte (x : Reg) (nn : Byte) (s : State) : exec (.sneByte x nn) s = .next (s.skipIf (s.reg x != nn)) := rfl

theorem exec_seReg (x y : Reg) (s : State) : exec (.seReg x y) s = .next (s.skipIf (s.reg x == s.reg y)) := rfl

theorem exec_sneReg (x y : Reg) (s : State) : exec (.sneReg x y) s = .next (s.skipIf (s.reg x != s.reg y)) := rfl

/-! ### The two tests a skip makes -/

theorem State.skipIf_beq_pc (s : State) (a b : Byte) : (s.skipIf (a == b)).pc = if a = b then s.pc + 2 else s.pc := by
  simp [State.skipIf_pc]

theorem State.skipIf_bne_pc (s : State) (a b : Byte) : (s.skipIf (a != b)).pc = if a = b then s.pc else s.pc + 2 := by
  simp [State.skipIf_pc]

/-- Settles O15: both are jumps, and their targets are `toNat_addrOf` and `toNat_v0Target`. -/
theorem jumpsSetPc : Obligations.JumpsSetPc := fun nnn s =>
  ⟨⟨_, exec_jp nnn s, toNat_addrOf nnn, s.jump_keepsAllBut_pc _⟩,
    ⟨_, exec_jpV0 nnn s, toNat_v0Target s nnn, s.jump_keepsAllBut_pc _⟩⟩

/-- Settles O18: two skips test equality and two test its negation. -/
theorem skipsTestTheirCondition : Obligations.SkipsTestTheirCondition := fun x y nn s =>
  ⟨⟨_, exec_seByte x nn s, s.skipIf_beq_pc _ _, s.skipIf_keepsAllBut_pc _⟩,
    ⟨_, exec_sneByte x nn s, s.skipIf_bne_pc _ _, s.skipIf_keepsAllBut_pc _⟩,
    ⟨_, exec_seReg x y s, s.skipIf_beq_pc _ _, s.skipIf_keepsAllBut_pc _⟩,
    ⟨_, exec_sneReg x y s, s.skipIf_bne_pc _ _, s.skipIf_keepsAllBut_pc _⟩⟩

end Sys2Proof.Machine

/-! PROOFS. The loads and the add without a flag (spec/41_alu.md R93 to R95): each answers a `State.setReg` of its
destination, which writes that register and nothing else. -/

namespace Sys2Proof.Machine

/-! ### What writing one register leaves unchanged -/

theorem State.setReg_keepsAllBut_regs (s : State) (x : Reg) (v : Byte) : KeepsAllBut [.regs] s (s.setReg x v) := by
  intro p hp
  cases p with
  | regs => exact absurd (List.mem_singleton_self _) hp
  | mem => exact s.readByte_setReg x v
  | _ => rfl

theorem State.setReg_writesOnlyRegs (s : State) (x : Reg) (v : Byte) : WritesOnlyRegs [x] s (s.setReg x v) :=
  ⟨fun _ hr => s.reg_setReg_ne (List.ne_of_not_mem_cons hr).symm v, s.setReg_keepsAllBut_regs x v⟩

/-! ### The instructions -/

theorem exec_ldByte (x : Reg) (nn : Byte) (s : State) : exec (.ldByte x nn) s = .next (s.setReg x nn) := rfl

theorem exec_addByte (x : Reg) (nn : Byte) (s : State) :
    exec (.addByte x nn) s = .next (s.setReg x (s.reg x + nn)) := rfl

theorem exec_ldReg (x y : Reg) (s : State) : exec (.ldReg x y) s = .next (s.setReg x (s.reg y)) := rfl

/-- The sum of two bytes wraps modulo 256 (R94). -/
theorem State.toNat_reg_setReg_add (s : State) (x : Reg) (a b : Byte) :
    ((s.setReg x (a + b)).reg x).toNat = (a.toNat + b.toNat) % 256 := by
  rw [State.reg_setReg_same, BitVec.toNat_add]

/-- Settles O19: all three write one register, and the sum wraps by `State.toNat_reg_setReg_add`. -/
theorem loadsAndAddImmediate : Obligations.LoadsAndAddImmediate := fun x y nn s =>
  ⟨⟨_, exec_ldByte x nn s, s.reg_setReg_same x _, s.setReg_writesOnlyRegs x _⟩,
    ⟨_, exec_addByte x nn s, s.toNat_reg_setReg_add x _ _, s.setReg_writesOnlyRegs x _⟩,
    ⟨_, exec_ldReg x y s, s.reg_setReg_same x _, s.setReg_writesOnlyRegs x _⟩⟩

end Sys2Proof.Machine

/-! PROOFS. The clear (spec/43_display.md R113): it answers the state with the clear framebuffer in place of its own, and
every pixel of the clear framebuffer is false. -/

namespace Sys2Proof.Machine

theorem Framebuffer.clear_getElem (y : Fin 32) (x : Fin 64) : Framebuffer.clear[y][x] = false := by
  simp only [Framebuffer.clear, Fin.getElem_fin, Vector.getElem_replicate]

theorem State.withFb_keepsAllBut_fb (s : State) (fb : Framebuffer) : KeepsAllBut [.fb] s { s with fb := fb } := by
  intro p hp
  cases p with
  | fb => exact absurd (List.mem_singleton_self _) hp
  | mem | regs => exact fun _ => rfl
  | _ => rfl

theorem exec_cls (s : State) : exec .cls s = .next { s with fb := Framebuffer.clear } := rfl

/-- Settles O31: the clear framebuffer replaces the state's own, and nothing else is written. -/
theorem clearScreenClearsEveryPixel : Obligations.ClearScreenClearsEveryPixel := fun s =>
  ⟨_, exec_cls s, Framebuffer.clear_getElem, s.withFb_keepsAllBut_fb _⟩

end Sys2Proof.Machine

/-! PROOFS. The timer moves (spec/44_keys_timers.md R123, R125, R126): the read answers a `State.setReg` of its
destination, and the two writes replace one timer each. -/

namespace Sys2Proof.Machine

/-! ### What replacing one timer leaves unchanged -/

theorem State.withDt_keepsAllBut_dt (s : State) (v : Byte) : KeepsAllBut [.dt] s { s with dt := v } := by
  intro p hp
  cases p with
  | dt => exact absurd (List.mem_singleton_self _) hp
  | mem | regs => exact fun _ => rfl
  | _ => rfl

theorem State.withSt_keepsAllBut_st (s : State) (v : Byte) : KeepsAllBut [.st] s { s with st := v } := by
  intro p hp
  cases p with
  | st => exact absurd (List.mem_singleton_self _) hp
  | mem | regs => exact fun _ => rfl
  | _ => rfl

/-! ### The instructions -/

theorem exec_ldVxDt (x : Reg) (s : State) : exec (.ldVxDt x) s = .next (s.setReg x s.dt) := rfl

theorem exec_ldDtVx (x : Reg) (s : State) : exec (.ldDtVx x) s = .next { s with dt := s.reg x } := rfl

theorem exec_ldStVx (x : Reg) (s : State) : exec (.ldStVx x) s = .next { s with st := s.reg x } := rfl

/-- Settles O39: one instruction writes a register with dt, and the other two write one timer each with VX. -/
theorem timerMoves : Obligations.TimerMoves := fun x s =>
  ⟨⟨_, exec_ldVxDt x s, s.reg_setReg_same x _, s.setReg_writesOnlyRegs x _⟩,
    ⟨_, exec_ldDtVx x s, rfl, s.withDt_keepsAllBut_dt _⟩,
    ⟨_, exec_ldStVx x s, rfl, s.withSt_keepsAllBut_st _⟩⟩

end Sys2Proof.Machine

/-! PROOFS. The unknown word (spec/60_exceptions.md R132): a word that selects no row of the map decodes to Unknown, a
step that fetches it faults with it, and the host sees that fault with the state as it was (R129). -/

namespace Sys2Proof

theorem wordWellFormed_eq_false_iff {w : Word} :
    wordWellFormed w = false ↔ ∀ r ∈ opcodeMap, w &&& r.mask ≠ r.pattern := by
  simp only [wordWellFormed, List.any_eq_false, OpRow.selects, beq_iff_eq]

theorem decode_of_not_wordWellFormed {w : Word} (h : wordWellFormed w = false) : decode w = .unknown w :=
  (decodeSelectsTheMatchingRow w).2 (wordWellFormed_eq_false_iff.mp h)

end Sys2Proof

namespace Sys2Proof.Machine

/-- The word at an address is determined by its big-endian value (R46). -/
theorem State.wordAt_eq_of_toNat {s : State} {a : Nat} {w : Word}
    (h : w.toNat = (s.readByte a).toNat * 256 + (s.readByte (a + 1)).toNat) : s.wordAt a = w :=
  BitVec.eq_of_toNat_eq ((wordOfBytes_toNat _ _).trans h.symm)

theorem step_of_unknown {s : State} {w : Word} (hpc : s.pc.toNat + 1 < 4096)
    (h : decode (s.wordAt s.pc.toNat) = .unknown w) : step s = .fault (.unknownInstruction w) := by
  simp only [step, fetch_eq, if_pos hpc, h, raise]

/-- R129: the host finds the state as it was before the step that faults. -/
theorem perform_step_of_fault {s : State} {f : Fault} (h : step s = .fault f) : perform .step s = (.fault f, s) := by
  simp only [perform, performStep, h]

/-- Settles O5: the word fetched is w, no row selects it, and so it decodes to Unknown(w). -/
theorem unknownWordFaults : Obligations.UnknownWordFaults := by
  intro s w hpc hw hbad
  have hdecode : decode (s.wordAt s.pc.toNat) = .unknown w := by
    rw [State.wordAt_eq_of_toNat hw, decode_of_not_wordWellFormed hbad]
  have hstep := step_of_unknown hpc hdecode
  exact ⟨hstep, perform_step_of_fault hstep⟩

end Sys2Proof.Machine

/-! PROOFS. The tick (spec/60_exceptions.md R143, R154): each timer goes down by 1 and stays at 0, which is subtraction on
the natural numbers, and no other part is written. -/

namespace Sys2Proof.Machine

/-- One timer's tick never wraps below 0 (R143). -/
theorem toNat_tickOne (t : Byte) : (tickOne t).toNat = t.toNat - 1 := by
  unfold tickOne
  split
  next hpos => exact BitVec.toNat_sub_of_le (BitVec.le_def.mpr hpos)
  next hzero => omega

theorem State.tickTimers_keepsAllBut_timers (s : State) : KeepsAllBut [.dt, .st] s s.tickTimers := by
  intro p hp
  cases p with
  | dt | st => exact absurd (by decide) hp
  | mem | regs => exact fun _ => rfl
  | _ => rfl

theorem perform_tickTimers (s : State) : perform .tickTimers s = (.ok, s.tickTimers) := rfl

/-- Settles O54: `toNat_tickOne` for each timer, and the frame of the tick. -/
theorem tickCountsBothTimersDown : Obligations.TickCountsBothTimersDown := fun s =>
  ⟨_, perform_tickTimers s, toNat_tickOne s.dt, toNat_tickOne s.st, s.tickTimers_keepsAllBut_timers⟩

end Sys2Proof.Machine

/-! PROOFS. Decode and encode (spec/30_encoding.md R64, R67, R72, R73): an encoded instruction is read back, a decoded
word is its own encoding, the rows of the map are all different, and the unknown words by their nibbles. -/

namespace Sys2Proof

/-! ### An encoded instruction is read back -/

/-- The selector of the encoded word picks the instruction's group, and each field comes back as it went in. -/
theorem decode_encode (i : Instr) : decode (encode i) = .known i := by
  cases i with
  | cls | ret => rfl
  | jp nnn | call nnn | ldI nnn | jpV0 nnn =>
    simp [encode, decode, Field.n1_addr, Field.nnn_addr]
  | seByte x nn | sneByte x nn | ldByte x nn | addByte x nn | rnd x nn | skp x | sknp x =>
    simp [encode, decode, Field.n1_regByte, Field.x_regByte, Field.nn_regByte]
  | seReg x y | sneReg x y | drw x y n =>
    simp [encode, decode, Field.n1_regReg, Field.x_regReg, Field.y_regReg, Field.n4_regReg]
  | ldReg x y | orReg x y | andReg x y | xorReg x y | addReg x y | subReg x y | shr x y | subn x y | shl x y =>
    simp [encode, decode, decodeAlu, Field.n1_regReg, Field.x_regReg, Field.y_regReg, Field.n4_regReg]
  | ldVxDt x | ldVxKey x | ldDtVx x | ldStVx x | addI x | ldFont x | ldBcd x | storeRegs x | loadRegs x =>
    simp [encode, decode, decodeMisc, Field.n1_regByte, Field.x_regByte, Field.nn_regByte]

/-- Settles O6: `decode_encode`, for every form. -/
theorem decodeOfEncodeIsTheInstruction : Obligations.DecodeOfEncodeIsTheInstruction := decode_encode

/-! ### A decoded word is its own encoding -/

theorem Encode.addr_of_n1 {w : Word} (a : BitVec 4) (ha : (Field.n1 w).toNat = a.toNat) :
    Encode.addr a (Field.nnn w) = w :=
  BitVec.eq_of_toNat_eq ha ▸ Encode.addr_fields w

theorem Encode.regByte_of_n1 {w : Word} (a : BitVec 4) (ha : (Field.n1 w).toNat = a.toNat) :
    Encode.regByte a (Field.x w) (Field.nn w) = w :=
  BitVec.eq_of_toNat_eq ha ▸ Encode.regByte_fields w

theorem Encode.regByte_of_n1_nn {w : Word} (a : BitVec 4) (b : Byte) (ha : (Field.n1 w).toNat = a.toNat)
    (hb : (Field.nn w).toNat = b.toNat) : Encode.regByte a (Field.x w) b = w :=
  BitVec.eq_of_toNat_eq hb ▸ Encode.regByte_of_n1 a ha

theorem Encode.regReg_of_n1 {w : Word} (a : BitVec 4) (ha : (Field.n1 w).toNat = a.toNat) :
    Encode.regReg a (Field.x w) (Field.y w) (Field.n4 w) = w :=
  BitVec.eq_of_toNat_eq ha ▸ Encode.regReg_fields w

theorem Encode.regReg_of_n1_n4 {w : Word} (a b : BitVec 4) (ha : (Field.n1 w).toNat = a.toNat)
    (hb : (Field.n4 w).toNat = b.toNat) : Encode.regReg a (Field.x w) (Field.y w) b = w :=
  BitVec.eq_of_toNat_eq hb ▸ Encode.regReg_of_n1 a ha

/-- An answer that names no instruction but one whose word is w. -/
def Decoded.Reencodes (w : Word) : Decoded → Prop
  | .known i => encode i = w
  | .unknown _ => True

theorem decodeAlu_reencodes {w : Word} (h : (Field.n1 w).toNat = 0x8) : (decodeAlu w).Reencodes w := by
  unfold decodeAlu
  split
  next k => exact Encode.regReg_of_n1_n4 8 0 h k
  next k => exact Encode.regReg_of_n1_n4 8 1 h k
  next k => exact Encode.regReg_of_n1_n4 8 2 h k
  next k => exact Encode.regReg_of_n1_n4 8 3 h k
  next k => exact Encode.regReg_of_n1_n4 8 4 h k
  next k => exact Encode.regReg_of_n1_n4 8 5 h k
  next k => exact Encode.regReg_of_n1_n4 8 6 h k
  next k => exact Encode.regReg_of_n1_n4 8 7 h k
  next k => exact Encode.regReg_of_n1_n4 8 0xE h k
  next => trivial

theorem decodeMisc_reencodes {w : Word} (h : (Field.n1 w).toNat = 0xF) : (decodeMisc w).Reencodes w := by
  unfold decodeMisc
  split
  next k => exact Encode.regByte_of_n1_nn 0xF 0x07 h k
  next k => exact Encode.regByte_of_n1_nn 0xF 0x0A h k
  next k => exact Encode.regByte_of_n1_nn 0xF 0x15 h k
  next k => exact Encode.regByte_of_n1_nn 0xF 0x18 h k
  next k => exact Encode.regByte_of_n1_nn 0xF 0x1E h k
  next k => exact Encode.regByte_of_n1_nn 0xF 0x29 h k
  next k => exact Encode.regByte_of_n1_nn 0xF 0x33 h k
  next k => exact Encode.regByte_of_n1_nn 0xF 0x55 h k
  next k => exact Encode.regByte_of_n1_nn 0xF 0x65 h k
  next => trivial

theorem decode_reencodes (w : Word) : (decode w).Reencodes w := by
  unfold decode
  split
  next =>
    split_ifs with hcls hret
    · exact hcls.symm
    · exact hret.symm
    · trivial
  next h => exact Encode.addr_of_n1 1 h
  next h => exact Encode.addr_of_n1 2 h
  next h => exact Encode.regByte_of_n1 3 h
  next h => exact Encode.regByte_of_n1 4 h
  next h =>
    split_ifs with h4
    · exact Encode.regReg_of_n1_n4 5 0 h (congrArg BitVec.toNat h4)
    · trivial
  next h => exact Encode.regByte_of_n1 6 h
  next h => exact Encode.regByte_of_n1 7 h
  next h => exact decodeAlu_reencodes h
  next h =>
    split_ifs with h4
    · exact Encode.regReg_of_n1_n4 9 0 h (congrArg BitVec.toNat h4)
    · trivial
  next h => exact Encode.addr_of_n1 0xA h
  next h => exact Encode.addr_of_n1 0xB h
  next h => exact Encode.regByte_of_n1 0xC h
  next h => exact Encode.regReg_of_n1 0xD h
  next h =>
    split_ifs with hskp hsknp
    · exact Encode.regByte_of_n1_nn 0xE 0x9E h (congrArg BitVec.toNat hskp)
    · exact Encode.regByte_of_n1_nn 0xE 0xA1 h (congrArg BitVec.toNat hsknp)
    · trivial
  next h => exact decodeMisc_reencodes h
  next => trivial

/-- Settles O7: `decode_reencodes`, where the answer is known. -/
theorem decodedWordIsItsEncoding : Obligations.DecodedWordIsItsEncoding := by
  intro w i hi
  have hre := decode_reencodes w
  rwa [hi] at hre

/-! ### The map lists no row twice -/

/-- Settles O9: the two rows are equal (`opcodeMap_row_unique`), and the map lists no row twice. -/
theorem opcodeRowsAreDisjoint : Obligations.OpcodeRowsAreDisjoint := by
  have hnodup : opcodeMap.Nodup := by decide
  refine ⟨rfl, fun w j k hj hk => Fin.ext ?_⟩
  exact (hnodup.getElem_inj_iff).mp
    (opcodeMap_row_unique (List.getElem_mem j.isLt) (List.getElem_mem k.isLt) hj hk)

/-! ### The unknown words, group by group -/

/-- Each of the nine codes answers an instruction, and the list has every other nibble. -/
theorem decodeAlu_eq_unknown {w : Word} :
    decodeAlu w = .unknown w ↔ w.toNat % 16 ∈ [0x8, 0x9, 0xA, 0xB, 0xC, 0xD, 0xF] := by
  rw [← Field.n4_toNat]
  have hlt := (Field.n4 w).isLt
  unfold decodeAlu
  split <;> simp_all
  omega

theorem decodeMisc_eq_unknown {w : Word} : decodeMisc w = .unknown w ↔
    w.toNat % 256 ∉ [0x07, 0x0A, 0x15, 0x18, 0x1E, 0x29, 0x33, 0x55, 0x65] := by
  rw [← Field.nn_toNat]
  unfold decodeMisc
  split <;> simp_all

theorem Field.n4_eq_zero {w : Word} : Field.n4 w = 0 ↔ w.toNat % 16 = 0 := by
  rw [← BitVec.toNat_inj, Field.n4_toNat]; rfl

theorem Field.nn_eq {w : Word} {b : Byte} : Field.nn w = b ↔ w.toNat % 256 = b.toNat := by
  rw [← BitVec.toNat_inj, Field.nn_toNat]

/-- Settles O10: decode by the word's group, and within groups 8 and F by the lemmas above. -/
theorem unknownSpaceByGroup : Obligations.UnknownSpaceByGroup := by
  intro w
  have hlow : w.toNat < 0x1000 ↔ w.toNat / 4096 = 0 := by omega
  have hw := w.isLt
  rw [hlow, decode, Field.n1_toNat]
  split
  next h =>
    split_ifs with hcls hret
    · subst hcls; decide
    · subst hret; decide
    · simpa [h, ← BitVec.toNat_inj] using And.intro hcls hret
  next h => simp [h]
  next h => simp [h]
  next h => simp [h]
  next h => simp [h]
  next h => simp [h, ← Field.n4_eq_zero]
  next h => simp [h]
  next h => simp [h]
  next h => simp [h, decodeAlu_eq_unknown]
  next h => simp [h, ← Field.n4_eq_zero]
  next h => simp [h]
  next h => simp [h]
  next h => simp [h]
  next h => simp [h]
  next h =>
    split_ifs with hskp hsknp
    · simp [h, Field.nn_eq.mp hskp]
    · simp [h, Field.nn_eq.mp hsknp]
    · simpa [h, Field.nn_eq] using And.intro hskp hsknp
  next h => simp [h, decodeMisc_eq_unknown]
  next => simp only [imp_false] at *; omega

/-- Settles O11: the samples, evaluated. -/
theorem sampleWordsDecode : Obligations.SampleWordsDecode := by
  unfold Obligations.SampleWordsDecode
  decide

end Sys2Proof

/-! PROOFS. Frames put together, and what each remaining state operation leaves unchanged. -/

namespace Sys2Proof.Machine

variable {s t u : State}

/-! ### Frames put together -/

theorem Keeps.trans {p : Part} (hst : Keeps s t p) (htu : Keeps t u p) : Keeps s u p := by
  cases p with
  | mem | regs => exact fun a => (htu a).trans (hst a)
  | _ => exact Eq.trans htu hst

theorem KeepsAllBut.trans {changed : List Part} (hst : KeepsAllBut changed s t) (htu : KeepsAllBut changed t u) :
    KeepsAllBut changed s u :=
  fun p hp => (hst p hp).trans (htu p hp)

theorem KeepsAllBut.mono {ps qs : List Part} (h : KeepsAllBut ps s t) (hsub : ∀ p ∈ ps, p ∈ qs) : KeepsAllBut qs s t :=
  fun p hp => h p fun hmem => hp (hsub p hmem)

/-! ### Parts replaced as a whole -/

theorem State.withIndex_keepsAllBut_index (s : State) (v : Word) : KeepsAllBut [.index] s { s with index := v } := by
  intro p hp
  cases p with
  | index => exact absurd (List.mem_singleton_self _) hp
  | mem | regs => exact fun _ => rfl
  | _ => rfl

theorem State.withDraws_keepsAllBut_draws (s : State) (n : Nat) : KeepsAllBut [.draws] s { s with draws := n } := by
  intro p hp
  cases p with
  | draws => exact absurd (List.mem_singleton_self _) hp
  | mem | regs => exact fun _ => rfl
  | _ => rfl

theorem State.withKeys_keepsAllBut_keys (s : State) (ks : Vector Bool 16) :
    KeepsAllBut [.keys] s { s with keys := ks } := by
  intro p hp
  cases p with
  | keys => exact absurd (List.mem_singleton_self _) hp
  | mem | regs => exact fun _ => rfl
  | _ => rfl

/-! ### One stack entry moved, and pc -/

theorem State.withPcSp_keepsAllBut (s : State) (d : Fin 17) (target : Word) :
    KeepsAllBut [.pc, .sp] s { s with pc := target, sp := d } := by
  intro p hp
  cases p with
  | pc | sp => exact absurd (by decide) hp
  | mem | regs => exact fun _ => rfl
  | _ => rfl

theorem State.withPcSpStack_keepsAllBut (s : State) (entries : Vector Word 16) (d : Fin 17) (target : Word) :
    KeepsAllBut [.pc, .sp, .stack] s { s with pc := target, stack := entries, sp := d } := by
  intro p hp
  cases p with
  | pc | sp | stack => exact absurd (by decide) hp
  | mem | regs => exact fun _ => rfl
  | _ => rfl

/-! ### Several registers -/

theorem State.setRegThenFlag_writesOnlyRegs (s : State) (x : Reg) (result flag : Byte) :
    WritesOnlyRegs [x, Reg.vf] s (s.setRegThenFlag x result flag) := by
  refine ⟨fun r hr => ?_, (s.setReg_keepsAllBut_regs x result).trans (State.setReg_keepsAllBut_regs _ Reg.vf flag)⟩
  simp only [List.mem_cons, List.not_mem_nil, or_false, not_or] at hr
  rw [State.reg_setRegThenFlag, if_neg (Ne.symm hr.2), if_neg (Ne.symm hr.1)]

theorem State.setRegsFrom_keepsAllBut_regs (s : State) (k : Nat) (bytes : List Byte) :
    KeepsAllBut [.regs] s (s.setRegsFrom k bytes) := by
  intro p hp
  cases p with
  | regs => exact absurd (List.mem_singleton_self _) hp
  | mem => exact s.readByte_setRegsFrom k bytes
  | _ => simp only [Keeps, State.setRegsFrom_index, State.setRegsFrom_pc, State.setRegsFrom_stack, State.setRegsFrom_sp,
      State.setRegsFrom_dt, State.setRegsFrom_st, State.setRegsFrom_fb, State.setRegsFrom_keys,
      State.setRegsFrom_config, State.setRegsFrom_draws]

/-! ### Consecutive bytes -/

theorem State.writeBytes_keepsAllBut_mem (s : State) (a : Nat) (bytes : List Byte) :
    KeepsAllBut [.mem] s (s.writeBytes a bytes) := by
  intro p hp
  cases p with
  | mem => exact absurd (List.mem_singleton_self _) hp
  | regs => exact s.reg_writeBytes a bytes
  | _ => simp only [Keeps, State.writeBytes_index, State.writeBytes_pc, State.writeBytes_stack, State.writeBytes_sp,
      State.writeBytes_dt, State.writeBytes_st, State.writeBytes_fb, State.writeBytes_keys, State.writeBytes_config,
      State.writeBytes_draws]

theorem State.readByte_writeBytes_outside (s : State) {a b : Nat} {bytes : List Byte}
    (hb : b < a ∨ a + bytes.length ≤ b) : (s.writeBytes a bytes).readByte b = s.readByte b := by
  rw [State.readByte_writeBytes, if_neg (by omega)]

theorem State.readByte_writeBytes_inside (s : State) (a : Nat) {k : Nat} {bytes : List Byte} (hk : k < bytes.length) :
    (s.writeBytes a bytes).readByte (a + k) = bytes.getD k 0 := by
  rw [State.readByte_writeBytes, if_pos (by omega), Nat.add_sub_cancel_left]

theorem State.writeBytes_writesOnlyBytes (s : State) (a : Nat) (bytes : List Byte) :
    WritesOnlyBytes a bytes.length s (s.writeBytes a bytes) :=
  ⟨fun _ hb => s.readByte_writeBytes_outside hb, s.writeBytes_keepsAllBut_mem a bytes⟩

/-! ### A draw -/

theorem State.drawSprite_keepsAllBut (s : State) (x y : Reg) (bytes : List Byte) :
    KeepsAllBut [.regs, .fb] s (s.drawSprite x y bytes) :=
  ((s.withFb_keepsAllBut_fb _).mono (by decide)).trans ((State.setReg_keepsAllBut_regs _ Reg.vf _).mono (by decide))

end Sys2Proof.Machine

/-! PROOFS. Call and return (spec/40_control_flow.md R81, R83; spec/10_state.md R29): each moves one stack entry and
pc, or faults on the bound of the stack. -/

namespace Sys2Proof.Machine

/-! ### The instructions -/

theorem exec_ret (s : State) : exec .ret s =
    if h : 0 < s.sp.val then
      .next (State.jump { s with sp := ⟨s.sp.val - 1, by omega⟩ } (s.stack[s.sp.val - 1]'(by omega)))
    else .fault (.stackUnderflow s.instrAddr) := by
  by_cases h : 0 < s.sp.val
  · simp only [exec, execRet, pop, dif_pos h]
  · simp only [exec, execRet, pop, dif_neg h, raise]

theorem exec_call (nnn : BitVec 12) (s : State) : exec (.call nnn) s =
    if h : s.sp.val < 16 then
      .next (State.jump { s with stack := s.stack.set s.sp.val s.pc, sp := ⟨s.sp.val + 1, by omega⟩ } (addrOf nnn))
    else .fault (.stackOverflow s.instrAddr) := by
  by_cases h : s.sp.val < 16
  · simp only [exec, execCall, push, dif_pos h]
  · simp only [exec, execCall, push, dif_neg h, raise]

/-- Settles O14: RET by the depth of the stack. -/
theorem returnPopsIntoPc : Obligations.ReturnPopsIntoPc := by
  intro s
  refine ⟨fun hempty => (exec_ret s).trans (dif_neg (by omega)), fun hpos =>
    ⟨_, (exec_ret s).trans (dif_pos hpos), Nat.sub_add_cancel hpos, fun k hk => ?_, s.withPcSp_keepsAllBut _ _⟩⟩
  simp only [State.jump_pc, Fin.getElem_fin, ← hk, Nat.add_sub_cancel]

/-- Settles O16: CALL by the depth of the stack. -/
theorem callPushesAndJumps : Obligations.CallPushesAndJumps := by
  intro nnn s
  refine ⟨fun hfull => (exec_call nnn s).trans (dif_neg (by omega)), fun hlt =>
    ⟨_, (exec_call nnn s).trans (dif_pos hlt), rfl, toNat_addrOf nnn, fun k => ?_, s.withPcSpStack_keepsAllBut _ _ _⟩⟩
  simp only [State.jump_stack, Fin.getElem_fin, Vector.getElem_set, eq_comm]

/-- Settles O17: the entry RET pops is the one CALL pushed. -/
theorem returnAfterCallComesBack : Obligations.ReturnAfterCallComesBack := by
  rintro nnn s u - ⟨t, hcall, hstack, hsp⟩
  obtain ⟨hlt, rfl⟩ := exec_call_next hcall
  have hdepth : u.sp.val = s.sp.val + 1 := congrArg Fin.val hsp
  refine ⟨_, (exec_ret u).trans (dif_pos (by omega)), ?_, Fin.ext ?_⟩
  · simp only [State.jump_pc, hstack, hdepth, Nat.add_sub_cancel, Vector.getElem_set_self]
  · simp only [State.jump_sp, hdepth, Nat.add_sub_cancel]

end Sys2Proof.Machine

/-! PROOFS. The ALU (spec/41_alu.md): the bitwise operations and the random byte write one register; the arithmetic
and the shifts write their result and then VF. -/

namespace Sys2Proof.Machine

/-! ### The instructions -/

theorem exec_orReg (x y : Reg) (s : State) : exec (.orReg x y) s = .next (s.setReg x (s.reg x ||| s.reg y)) := rfl

theorem exec_andReg (x y : Reg) (s : State) : exec (.andReg x y) s = .next (s.setReg x (s.reg x &&& s.reg y)) := rfl

theorem exec_xorReg (x y : Reg) (s : State) : exec (.xorReg x y) s = .next (s.setReg x (s.reg x ^^^ s.reg y)) := rfl

theorem exec_addReg (x y : Reg) (s : State) : exec (.addReg x y) s =
    .next (s.setRegThenFlag x (s.reg x + s.reg y) (carryFlag (s.reg x) (s.reg y))) := rfl

theorem exec_subReg (x y : Reg) (s : State) : exec (.subReg x y) s =
    .next (s.setRegThenFlag x (s.reg x - s.reg y) (notBorrowFlag (s.reg x) (s.reg y))) := rfl

theorem exec_subn (x y : Reg) (s : State) : exec (.subn x y) s =
    .next (s.setRegThenFlag x (s.reg y - s.reg x) (notBorrowFlag (s.reg y) (s.reg x))) := rfl

theorem exec_shr (x y : Reg) (s : State) :
    exec (.shr x y) s = .next (s.setRegThenFlag x (s.reg x >>> 1) (droppedLow (s.reg x))) := rfl

theorem exec_shl (x y : Reg) (s : State) :
    exec (.shl x y) s = .next (s.setRegThenFlag x (s.reg x <<< 1) (droppedHigh (s.reg x))) := rfl

theorem exec_rnd (x : Reg) (nn : Byte) (s : State) : exec (.rnd x nn) s =
    .next (State.setReg { s with draws := s.draws + 1 } x (Config.rand s.draws &&& nn)) := rfl

/-! ### Result and flag -/

theorem State.reg_vf_setRegThenFlag (s : State) (x : Reg) (result flag : Byte) :
    (s.setRegThenFlag x result flag).reg Reg.vf = flag := by
  rw [State.reg_setRegThenFlag, if_pos rfl]

/-- A destination other than VF holds the result. -/
theorem State.reg_dest_setRegThenFlag (s : State) {x : Reg} (hx : x ≠ Reg.vf) (result flag : Byte) :
    (s.setRegThenFlag x result flag).reg x = result := by
  rw [State.reg_setRegThenFlag, if_neg hx.symm, if_pos rfl]

theorem carryFlag_eq (a b : Byte) : carryFlag a b = if a.toNat + b.toNat > 255 then 1 else 0 := by
  simp only [carryFlag, flagByte, decide_eq_true_eq]

theorem notBorrowFlag_eq (a b : Byte) : notBorrowFlag a b = if a.toNat ≥ b.toNat then 1 else 0 := by
  simp only [notBorrowFlag, flagByte, decide_eq_true_eq]

theorem toNat_flagByte (b : Bool) : (flagByte b).toNat = b.toNat := by cases b <;> rfl

theorem toNat_droppedLow (v : Byte) : (droppedLow v).toNat = v.toNat % 2 := by
  rw [droppedLow, toNat_flagByte, BitVec.getLsbD, Nat.toNat_testBit, Nat.pow_zero, Nat.div_one]

theorem toNat_droppedHigh (v : Byte) : (droppedHigh v).toNat = v.toNat / 128 := by
  have hv := v.isLt
  rw [droppedHigh, toNat_flagByte, BitVec.getLsbD, Nat.toNat_testBit]
  omega

/-! ### The results as numbers -/

theorem toInt_toNat_sub (a b : Byte) : ((a - b).toNat : Int) = ((a.toNat : Int) - b.toNat) % 256 := by
  have ha := a.isLt
  have hb := b.isLt
  rw [BitVec.toNat_sub]
  omega

theorem toNat_shiftRight_one (v : Byte) : (v >>> 1).toNat = v.toNat / 2 := by
  rw [BitVec.toNat_ushiftRight, Nat.shiftRight_eq_div_pow, Nat.pow_one]

theorem toNat_shiftLeft_one (v : Byte) : (v <<< 1).toNat = v.toNat * 2 % 256 := by
  rw [BitVec.toNat_shiftLeft, Nat.shiftLeft_eq, Nat.pow_one]

/-! ### The obligations -/

/-- Settles O20: each writes one register, with the operation bit by bit. -/
theorem logicIsBitwise : Obligations.LogicIsBitwise := by
  intro x y s
  refine ⟨⟨_, exec_orReg x y s, fun k => ?_, s.setReg_writesOnlyRegs x _⟩,
    ⟨_, exec_andReg x y s, fun k => ?_, s.setReg_writesOnlyRegs x _⟩,
    ⟨_, exec_xorReg x y s, fun k => ?_, s.setReg_writesOnlyRegs x _⟩⟩
  · rw [State.reg_setReg_same, BitVec.getLsbD_or]
  · rw [State.reg_setReg_same, BitVec.getLsbD_and]
  · rw [State.reg_setReg_same, BitVec.getLsbD_xor]

/-- Settles O21: the sum wraps, and VF is `carryFlag_eq`. -/
theorem addWritesSumAndCarry : Obligations.AddWritesSumAndCarry := by
  intro x y s
  refine ⟨_, exec_addReg x y s, fun hx => ?_, ?_, s.setRegThenFlag_writesOnlyRegs x _ _⟩
  · rw [State.reg_dest_setRegThenFlag s hx, BitVec.toNat_add]
  · rw [State.reg_vf_setRegThenFlag, carryFlag_eq]

/-- Settles O22: the differences wrap by `toInt_toNat_sub`, and VF is `notBorrowFlag_eq`. -/
theorem subtractionsWriteNotBorrow : Obligations.SubtractionsWriteNotBorrow := by
  intro x y s
  refine ⟨⟨_, exec_subReg x y s, fun hx => ?_, ?_, s.setRegThenFlag_writesOnlyRegs x _ _⟩,
    ⟨_, exec_subn x y s, fun hx => ?_, ?_, s.setRegThenFlag_writesOnlyRegs x _ _⟩⟩
  · rw [State.reg_dest_setRegThenFlag s hx, toInt_toNat_sub]
  · rw [State.reg_vf_setRegThenFlag, notBorrowFlag_eq]
  · rw [State.reg_dest_setRegThenFlag s hx, toInt_toNat_sub]
  · rw [State.reg_vf_setRegThenFlag, notBorrowFlag_eq]

/-- Settles O23: the two shifts by one and the bits they drop, as numbers. -/
theorem shiftsDropTheirBitIntoFlag : Obligations.ShiftsDropTheirBitIntoFlag := by
  intro x y s
  refine ⟨⟨_, exec_shr x y s, fun hx => ?_, ?_, s.setRegThenFlag_writesOnlyRegs x _ _⟩,
    ⟨_, exec_shl x y s, fun hx => ?_, ?_, s.setRegThenFlag_writesOnlyRegs x _ _⟩⟩
  · rw [State.reg_dest_setRegThenFlag s hx, toNat_shiftRight_one]
  · rw [State.reg_vf_setRegThenFlag, toNat_droppedLow]
  · rw [State.reg_dest_setRegThenFlag s hx, toNat_shiftLeft_one]
  · rw [State.reg_vf_setRegThenFlag, toNat_droppedHigh]

theorem State.setReg_withDraws_keepsAllBut (s : State) (n : Nat) (x : Reg) (v : Byte) :
    KeepsAllBut [.regs, .draws] s (State.setReg { s with draws := n } x v) :=
  ((s.withDraws_keepsAllBut_draws _).mono (by decide)).trans ((State.setReg_keepsAllBut_regs _ x v).mono (by decide))

/-- Settles O24: VX is the free byte AND NN, and a clear bit of NN clears the bit. -/
theorem randomByteIsMasked : Obligations.RandomByteIsMasked := by
  intro x nn s
  have hx := State.reg_setReg_same { s with draws := s.draws + 1 } x (Config.rand s.draws &&& nn)
  refine ⟨_, exec_rnd x nn s, ⟨_, hx⟩, hx, fun k hk => ?_, fun r hr => ?_, s.setReg_withDraws_keepsAllBut _ x _, rfl⟩
  · rw [hx, BitVec.getLsbD_and, hk, Bool.and_false]
  · exact State.reg_setReg_ne { s with draws := s.draws + 1 } hr.symm _

end Sys2Proof.Machine

/-! PROOFS. The loads of I (spec/42_index_memory.md R105 to R107): each replaces I. -/

namespace Sys2Proof.Machine

theorem exec_ldI (nnn : BitVec 12) (s : State) : exec (.ldI nnn) s = .next { s with index := addrOf nnn } := rfl

theorem exec_addI (x : Reg) (s : State) :
    exec (.addI x) s = .next { s with index := s.index + (s.reg x).setWidth 16 } := rfl

theorem exec_ldFont (x : Reg) (s : State) : exec (.ldFont x) s = .next { s with index := glyphAddr (s.reg x) } := rfl

theorem toNat_setWidth_16 (v : Byte) : (v.setWidth 16).toNat = v.toNat := BitVec.toNat_setWidth_of_le (by decide)

/-- 5 VX is at most 5 * 0xFF, so it never wraps. -/
theorem toNat_glyphAddr (v : Byte) : (glyphAddr v).toNat = v.toNat * 5 := by
  have hv := v.isLt
  rw [glyphAddr, BitVec.toNat_mul, toNat_setWidth_16]
  exact Nat.mod_eq_of_lt (by change v.toNat * 5 < 65536; omega)

/-- Settles O25: the three values as numbers, and the frame of replacing I. -/
theorem indexLoads : Obligations.IndexLoads := by
  intro x nnn s
  refine ⟨⟨_, exec_ldI nnn s, toNat_addrOf nnn, s.withIndex_keepsAllBut_index _⟩,
    ⟨_, exec_addI x s, ?_, s.withIndex_keepsAllBut_index _⟩,
    ⟨_, exec_ldFont x s, toNat_glyphAddr _, s.withIndex_keepsAllBut_index _⟩⟩
  rw [BitVec.toNat_add, toNat_setWidth_16]

end Sys2Proof.Machine

/-! PROOFS. The memory transfers (spec/42_index_memory.md R108 to R112): each checks its whole block at I and then
moves it, or faults with the lowest bad address. -/

namespace Sys2Proof.Machine

theorem font_check_passes {c : Config} {a : Nat} (h : c.fontWritable = true ∨ 80 ≤ a) :
    ¬(c.fontWritable = false ∧ a < 80) := by
  rintro ⟨hclosed, hlt⟩
  rcases h with hopen | hge
  · exact Bool.false_ne_true (hclosed.symm.trans hopen)
  · omega

/-! ### The instructions -/

theorem exec_ldBcd (x : Reg) (s : State) : exec (.ldBcd x) s =
    if 4096 ≤ s.index.toNat + 2 then .fault (.memoryOutOfBounds (max s.index.toNat 4096) .write)
    else if s.config.fontWritable = false ∧ s.index.toNat < 80 then .fault (.fontWrite s.index.toNat)
    else .next (s.writeBytes s.index.toNat (bcdDigits (s.reg x))) := by
  have hbound : 4096 < s.index.toNat + (bcdDigits (s.reg x)).length ↔ 4096 ≤ s.index.toNat + 2 := Nat.succ_le_succ_iff
  simp only [exec, execLdBcd, State.indexAddr, memWrite_eq s _ (bcdDigits (s.reg x)) (List.cons_ne_nil _ _), hbound]
  split_ifs <;> rfl

theorem exec_storeRegs (x : Reg) (s : State) : exec (.storeRegs x) s =
    if 4096 ≤ s.index.toNat + x.val then .fault (.memoryOutOfBounds (max s.index.toNat 4096) .write)
    else if s.config.fontWritable = false ∧ s.index.toNat < 80 then .fault (.fontWrite s.index.toNat)
    else .next (s.writeBytes s.index.toNat (s.regsUpTo x)) := by
  have hne : s.regsUpTo x ≠ [] := List.ne_nil_of_length_eq_add_one (s.length_regsUpTo x)
  have hbound : 4096 < s.index.toNat + (s.regsUpTo x).length ↔ 4096 ≤ s.index.toNat + x.val := by
    rw [State.length_regsUpTo]; omega
  simp only [exec, execStoreRegs, State.indexAddr, memWrite_eq s _ _ hne, hbound]
  split_ifs <;> rfl

theorem exec_loadRegs (x : Reg) (s : State) : exec (.loadRegs x) s =
    if s.index.toNat + x.val < 4096 then .next (s.setRegsFrom 0 (s.readBytes s.index.toNat (x.val + 1)))
    else .fault (.memoryOutOfBounds (max s.index.toNat 4096) .read) := by
  have hbound : x.val + 1 = 0 ∨ s.index.toNat + (x.val + 1) ≤ 4096 ↔ s.index.toNat + x.val < 4096 := by omega
  simp only [exec, execLoadRegs, State.indexAddr, memRead_eq, hbound]
  split_ifs <;> rfl

/-! ### The blocks -/

/-- The digits read back as numbers. -/
theorem State.toNat_readByte_writeBytes_bcdDigits (s : State) (a : Nat) (v : Byte) :
    ((s.writeBytes a (bcdDigits v)).readByte a).toNat = v.toNat / 100 ∧
    ((s.writeBytes a (bcdDigits v)).readByte (a + 1)).toNat = v.toNat / 10 % 10 ∧
    ((s.writeBytes a (bcdDigits v)).readByte (a + 2)).toNat = v.toNat % 10 := by
  have hv := v.isLt
  have hread (k : Nat) (hk : k < 3) : (s.writeBytes a (bcdDigits v)).readByte (a + k) = (bcdDigits v).getD k 0 :=
    s.readByte_writeBytes_inside a hk
  refine ⟨(congrArg BitVec.toNat (hread 0 (by decide))).trans ?_,
    (congrArg BitVec.toNat (hread 1 (by decide))).trans ?_, (congrArg BitVec.toNat (hread 2 (by decide))).trans ?_⟩
  all_goals exact (BitVec.toNat_ofNat _ 8).trans (Nat.mod_eq_of_lt (by omega))

theorem State.readByte_writeBytes_regsUpTo (s : State) (a : Nat) {x k : Reg} (hk : k ≤ x) :
    (s.writeBytes a (s.regsUpTo x)).readByte (a + k.val) = s.reg k := by
  have hk : k.val ≤ x.val := hk
  rw [State.readByte_writeBytes_inside s a (by rw [State.length_regsUpTo]; omega), s.getD_regsUpTo x hk]

/-- A register up to VX holds its byte of the block. -/
theorem State.reg_setRegsFrom_readBytes_le (s : State) (a : Nat) {x k : Reg} (hk : k ≤ x) :
    (s.setRegsFrom 0 (s.readBytes a (x.val + 1))).reg k = s.readByte (a + k.val) := by
  have hk : k.val ≤ x.val := hk
  rw [State.reg_setRegsFrom, State.length_readBytes, if_pos (by omega), Nat.sub_zero, s.getD_readBytes (by omega)]

theorem State.reg_setRegsFrom_readBytes_gt (s : State) (a : Nat) {x k : Reg} (hk : x < k) :
    (s.setRegsFrom 0 (s.readBytes a (x.val + 1))).reg k = s.reg k := by
  have hk : x.val < k.val := hk
  rw [State.reg_setRegsFrom, State.length_readBytes, if_neg (by omega)]

/-! ### The obligations -/

/-- Settles O26: FX33 by its two checks. -/
theorem bcdWritesThreeDigits : Obligations.BcdWritesThreeDigits := by
  intro x s
  rw [exec_ldBcd]
  refine ⟨fun hout => if_pos hout, fun hw hfont => ?_, fun hin hok => ?_⟩
  · rw [if_neg (by omega), if_pos ⟨hw, hfont⟩]
  · obtain ⟨h100, h10, h1⟩ := s.toNat_readByte_writeBytes_bcdDigits s.index.toNat (s.reg x)
    rw [if_neg (by omega), if_neg (font_check_passes hok)]
    exact ⟨_, rfl, h100, h10, h1, s.writeBytes_writesOnlyBytes s.index.toNat (bcdDigits (s.reg x))⟩

/-- Settles O27: a byte is the sum of its three digits. -/
theorem bcdDigitsAddUp : Obligations.BcdDigitsAddUp := by
  intro x s t h
  obtain ⟨rfl, -, -⟩ := exec_ldBcd_next h
  obtain ⟨h100, h10, h1⟩ := s.toNat_readByte_writeBytes_bcdDigits s.index.toNat (s.reg x)
  have hv := (s.reg x).isLt
  exact ⟨_, _, _, h100, h10, h1, by omega, by omega, by omega, by omega⟩

/-- Settles O28: FX55 by its two checks. -/
theorem storeRegistersWritesTheBlock : Obligations.StoreRegistersWritesTheBlock := by
  intro x s
  rw [exec_storeRegs]
  refine ⟨fun hout => if_pos hout, fun hw hfont => ?_, fun hin hok => ?_⟩
  · rw [if_neg (by omega), if_pos ⟨hw, hfont⟩]
  · rw [if_neg (by omega), if_neg (font_check_passes hok)]
    exact ⟨_, rfl, fun k hk => s.readByte_writeBytes_regsUpTo _ hk,
      s.length_regsUpTo x ▸ s.writeBytes_writesOnlyBytes s.index.toNat (s.regsUpTo x)⟩

/-- Settles O29: FX65 by its bound check. -/
theorem loadRegistersReadsTheBlock : Obligations.LoadRegistersReadsTheBlock := by
  intro x s
  rw [exec_loadRegs]
  refine ⟨fun hout => if_neg (by omega), fun hin => ⟨_, if_pos hin, ?_, ?_, s.setRegsFrom_keepsAllBut_regs 0 _⟩⟩
  · exact fun k hk => s.reg_setRegsFrom_readBytes_le _ hk
  · exact fun k hk => s.reg_setRegsFrom_readBytes_gt _ hk

/-- Settles O30: the block FX65 reads is the one FX55 wrote. -/
theorem storeThenLoadRestoresRegisters : Obligations.StoreThenLoadRestoresRegisters := by
  intro x s t u hstore hindex hmem
  obtain ⟨rfl, hin, -⟩ := exec_storeRegs_next hstore
  refine ⟨_, (exec_loadRegs x u).trans (if_pos (hindex ▸ hin)), fun k hk => ?_, fun k hk => ?_⟩
  · rw [u.reg_setRegsFrom_readBytes_le _ hk, hmem, hindex, s.readByte_writeBytes_regsUpTo _ hk]
  · exact u.reg_setRegsFrom_readBytes_gt _ hk

end Sys2Proof.Machine

/-! PROOFS. The draw (spec/43_display.md R114 to R119): the pixels it flips are the ones the sprite covers. -/

namespace Sys2Proof.Machine

theorem exec_drw (x y : Reg) (n : BitVec 4) (s : State) : exec (.drw x y n) s =
    if n.toNat = 0 ∨ s.index.toNat + n.toNat ≤ 4096 then
      .next (s.drawSprite x y (s.readBytes s.index.toNat n.toNat))
    else .fault (.memoryOutOfBounds (max s.index.toNat 4096) .read) := by
  simp only [exec, execDrw, State.indexAddr, memRead_eq]
  split_ifs <;> rfl

/-- The pixels the engine touches are the ones `SpriteCovers` names. -/
theorem mem_spriteTargets_readBytes {s : State} {x y : Reg} {n : Nat} {py : Fin 32} {px : Fin 64} :
    (py, px) ∈ spriteTargets (s.reg x) (s.reg y) 0 (s.readBytes s.index.toNat n) ↔ SpriteCovers s x y n py px := by
  simp only [mem_spriteTargets, State.length_readBytes, SpriteCovers, spriteBit, Prod.mk.injEq, Fin.ext_iff,
    pixelRow, pixelColumn, Nat.zero_add]
  refine exists₂_congr fun r c => and_congr_right fun hr => ?_
  rw [s.getD_readBytes hr, and_comm (a := py.val = _)]

section

variable (s : State) (x y : Reg) (n : BitVec 4)

theorem length_sprite_le : (s.readBytes s.index.toNat n.toNat).length ≤ 32 := by
  have hn := n.isLt
  rw [State.length_readBytes]
  omega

theorem State.pixel_drawSprite_of_covers {py : Fin 32} {px : Fin 64} (h : SpriteCovers s x y n.toNat py px) :
    (s.drawSprite x y (s.readBytes s.index.toNat n.toNat)).pixel py px = !s.pixel py px := by
  obtain ⟨hpixel, -, -⟩ := drawSprite_spec s x y _ (length_sprite_le s n)
  rw [hpixel, decide_eq_true (mem_spriteTargets_readBytes.mpr h), Bool.xor_true]

theorem State.pixel_drawSprite_of_not_covers {py : Fin 32} {px : Fin 64} (h : ¬ SpriteCovers s x y n.toNat py px) :
    (s.drawSprite x y (s.readBytes s.index.toNat n.toNat)).pixel py px = s.pixel py px := by
  obtain ⟨hpixel, -, -⟩ := drawSprite_spec s x y _ (length_sprite_le s n)
  rw [hpixel, decide_eq_false (mt mem_spriteTargets_readBytes.mp h), Bool.xor_false]

theorem State.reg_vf_drawSprite [Decidable (SpriteHits s x y n.toNat)] :
    (s.drawSprite x y (s.readBytes s.index.toNat n.toNat)).reg Reg.vf =
      if SpriteHits s x y n.toNat then 1 else 0 := by
  obtain ⟨-, hflag, -⟩ := drawSprite_spec s x y _ (length_sprite_le s n)
  rw [hflag]
  refine if_congr ?_ rfl rfl
  simp only [Prod.exists, mem_spriteTargets_readBytes, SpriteHits]

theorem State.reg_drawSprite_of_ne_vf (bytes : List Byte) {r : Reg} (hr : r ≠ Reg.vf) :
    (s.drawSprite x y bytes).reg r = s.reg r :=
  State.reg_setReg_ne _ hr.symm _

end

/-- Settles O32: DXYN by its bound check, the pixels and the flag by what the sprite covers. -/
theorem drawFlipsTheCoveredPixels : Obligations.DrawFlipsTheCoveredPixels := by
  classical
  intro x y n s
  rw [exec_drw]
  refine ⟨fun hn hout => if_neg (by omega), fun hin => ⟨_, if_pos hin, ?_, ?_, ?_, ?_, ?_, ?_⟩⟩
  · exact fun _ _ => s.pixel_drawSprite_of_covers x y n
  · exact fun _ _ => s.pixel_drawSprite_of_not_covers x y n
  · exact fun hit => (s.reg_vf_drawSprite x y n).trans (if_pos hit)
  · exact fun hit => (s.reg_vf_drawSprite x y n).trans (if_neg hit)
  · exact fun _ hr => s.reg_drawSprite_of_ne_vf x y _ hr
  · exact s.drawSprite_keepsAllBut x y _

/-- A draw of no rows touches no pixel, whatever I is (R118). -/
theorem exec_drw_zero (x y : Reg) (s : State) : exec (.drw x y 0) s = .next (s.setReg Reg.vf 0) :=
  (exec_drw x y 0 s).trans (if_pos (.inl rfl))

/-- Settles O33: such a draw is a write of VF. -/
theorem drawOfZeroRowsOnlyClearsFlag : Obligations.DrawOfZeroRowsOnlyClearsFlag := fun x y s =>
  ⟨_, exec_drw_zero x y s, s.reg_setReg_same Reg.vf 0, s.setReg_writesOnlyRegs Reg.vf 0⟩

/-- What a sprite covers depends on its bytes and its two coordinates only. -/
theorem spriteCovers_congr {s t : State} {x y : Reg} {n : Nat} (hmem : Keeps s t .mem) (hindex : t.index = s.index)
    (hx : t.reg x = s.reg x) (hy : t.reg y = s.reg y) (py : Fin 32) (px : Fin 64) :
    SpriteCovers t x y n py px ↔ SpriteCovers s x y n py px := by
  have hread : ∀ a, t.readByte a = s.readByte a := hmem
  simp only [SpriteCovers, hread, hindex, hx, hy]

/-- Settles O34: the second draw flips the same pixels back, and those the first one turned on are on. -/
theorem drawingTwiceRestoresThePixels : Obligations.DrawingTwiceRestoresThePixels := by
  intro x y n s t hdraw hx hy
  have hin := (exec_drw_next hdraw).2
  obtain ⟨t', ht', hflip, hsame, -, -, -, hkeeps⟩ := (drawFlipsTheCoveredPixels x y n s).2 hin
  obtain rfl : t = t' := Host.Outcome.next.inj (hdraw.symm.trans ht')
  have hindex : t.index = s.index := hkeeps .index (by decide)
  obtain ⟨u, hu, hflip', hsame', hhit, hmiss, -, -⟩ := (drawFlipsTheCoveredPixels x y n t).2 (hindex ▸ hin)
  have hcovers := spriteCovers_congr (n := n.toNat) (hkeeps .mem (by decide)) hindex hx hy
  have hvf : u.reg Reg.vf = 1 ↔ SpriteHits t x y n.toNat :=
    ⟨fun hone => by_contra fun hno => absurd ((hmiss hno).symm.trans hone) (by decide), hhit⟩
  have hturnedOn : SpriteHits t x y n.toNat ↔ ∃ py px, s.pixel py px = false ∧ t.pixel py px = true := by
    refine exists₂_congr fun py px => ?_
    by_cases hc : SpriteCovers s x y n.toNat py px
    · simp [hcovers, hc, hflip]
    · simp [hcovers, hc, hsame]
  refine ⟨u, hu, fun py px => ?_, hvf.trans hturnedOn, fun hclear ⟨py, px, hc⟩ => ?_⟩
  · by_cases hc : SpriteCovers s x y n.toNat py px
    · rw [hflip' py px ((hcovers py px).mpr hc), hflip py px hc, Bool.not_not]
    · rw [hsame' py px (mt (hcovers py px).mp hc), hsame py px hc]
  · exact (hvf.trans hturnedOn).mpr ⟨py, px, hclear py px, by rw [hflip py px hc, hclear, Bool.not_false]⟩

/-- Settles O35: each offset is determined by its wrapped row or column. -/
theorem spriteBitsLandOnDifferentPixels : Obligations.SpriteBitsLandOnDifferentPixels := by
  intro vx vy r c q d hr hc hq hd hrow hcol
  exact ⟨pixelRow_inj 0 (by omega) (by omega) hrow, pixelColumn_inj (by omega) (by omega) hcol⟩

end Sys2Proof.Machine

/-! PROOFS. The keypad (spec/44_keys_timers.md R120 to R124): the key skips fault on an index of 16 or more, and FX0A
takes the lowest pressed key or goes back to itself. -/

namespace Sys2Proof.Machine

theorem exec_skp (x : Reg) (s : State) : exec (.skp x) s =
    if h : (s.reg x).toNat < 16 then .next (s.skipIf s.keys[(s.reg x).toNat])
    else .fault (.keyIndexOutOfRange (s.reg x)) := by
  by_cases h : (s.reg x).toNat < 16
  · simp only [exec, execSkp, keyIndex, dif_pos h, Fin.getElem_fin]
  · simp only [exec, execSkp, keyIndex, dif_neg h, raise]

theorem exec_sknp (x : Reg) (s : State) : exec (.sknp x) s =
    if h : (s.reg x).toNat < 16 then .next (s.skipIf (!s.keys[(s.reg x).toNat]))
    else .fault (.keyIndexOutOfRange (s.reg x)) := by
  by_cases h : (s.reg x).toNat < 16
  · simp only [exec, execSknp, keyIndex, dif_pos h, Fin.getElem_fin]
  · simp only [exec, execSknp, keyIndex, dif_neg h, raise]

/-- Settles O36: both skips by the bound of the key index. -/
theorem keySkipsTestTheKey : Obligations.KeySkipsTestTheKey := by
  intro x s
  refine ⟨fun hout => ⟨?_, ?_⟩, fun k hk => ⟨?_, ?_⟩⟩
  · rw [exec_skp, dif_neg (by omega)]
  · rw [exec_sknp, dif_neg (by omega)]
  · refine ⟨_, (exec_skp x s).trans (dif_pos (by omega)), ?_, s.skipIf_keepsAllBut_pc _⟩
    simp only [State.skipIf_pc, hk, Fin.getElem_fin]
  · refine ⟨_, (exec_sknp x s).trans (dif_pos (by omega)), ?_, s.skipIf_keepsAllBut_pc _⟩
    simp only [State.skipIf_pc, hk, Fin.getElem_fin, Bool.not_eq_true', ← Bool.not_eq_true, ite_not]

/-! ### The lowest pressed key -/

theorem State.firstPressed_eq_some {s : State} {k : Fin 16} (hk : s.keys[k] = true)
    (hlow : ∀ j : Fin 16, j < k → s.keys[j] = false) : s.firstPressed = some k := by
  rw [State.firstPressed, List.find?_eq_some_iff_getElem]
  refine ⟨hk, k.val, by simp, by simp, fun j hj => ?_⟩
  simpa using hlow ⟨j, by omega⟩ hj

theorem State.firstPressed_eq_none {s : State} (hup : ∀ k : Fin 16, s.keys[k] = false) : s.firstPressed = none := by
  rw [State.firstPressed, List.find?_eq_none]
  exact fun k _ => Bool.not_eq_true _ ▸ hup k

theorem exec_ldVxKey_of_some {s : State} {k : Fin 16} (x : Reg) (h : s.firstPressed = some k) :
    exec (.ldVxKey x) s = .next (s.setReg x (BitVec.ofNat 8 k.val)) := by
  simp only [exec, execLdVxKey, h]

theorem exec_ldVxKey_of_none {s : State} (x : Reg) (h : s.firstPressed = none) :
    exec (.ldVxKey x) s = .next (s.jump (s.pc - 2)) := by
  simp only [exec, execLdVxKey, h]

/-- Settles O37: FX0A by the lowest pressed key. -/
theorem keyWaitTakesTheLowestKey : Obligations.KeyWaitTakesTheLowestKey := by
  intro x s
  refine ⟨fun k hk hlow => ?_, fun hup => ?_⟩
  · refine ⟨_, exec_ldVxKey_of_some x (State.firstPressed_eq_some hk hlow), ?_, s.setReg_writesOnlyRegs x _⟩
    rw [State.reg_setReg_same, BitVec.toNat_ofNat]
    exact Nat.mod_eq_of_lt (by omega)
  · exact ⟨_, exec_ldVxKey_of_none x (State.firstPressed_eq_none hup), rfl, s.jump_keepsAllBut_pc _⟩

/-- Settles O38: FX0A takes pc back to where the fetch found it. -/
theorem keyWaitWithoutKeyIsAFixedPoint : Obligations.KeyWaitWithoutKeyIsAFixedPoint := by
  intro x s hruns hup
  have hnone : (s.jump (s.pc + 2)).firstPressed = none := State.firstPressed_eq_none hup
  rw [step_of_runs hruns, exec_ldVxKey_of_none x hnone, State.jump_pc, BitVec.add_sub_cancel]
  rfl

end Sys2Proof.Machine

/-! PROOFS. Everything a step may change: each instruction's list of parts, the frame it leaves, and which
instructions list a part. -/

namespace Sys2Proof.Machine

/-! ### The parts an instruction may write -/

/-- The parts of the state an instruction may change, pc counted only where it leaves the next word's address (R26). -/
def writtenParts : Instr → List Part
  | .cls => [.fb]
  | .ret => [.pc, .sp]
  | .call _ => [.pc, .sp, .stack]
  | .jp _ | .jpV0 _ | .seByte _ _ | .sneByte _ _ | .seReg _ _ | .sneReg _ _ | .skp _ | .sknp _ => [.pc]
  | .ldByte _ _ | .addByte _ _ | .ldReg _ _ | .orReg _ _ | .andReg _ _ | .xorReg _ _ => [.regs]
  | .addReg _ _ | .subReg _ _ | .shr _ _ | .subn _ _ | .shl _ _ | .ldVxDt _ | .loadRegs _ => [.regs]
  | .rnd _ _ => [.regs, .draws]
  | .drw _ _ _ => [.regs, .fb]
  | .ldVxKey _ => [.regs, .pc]
  | .ldDtVx _ => [.dt]
  | .ldStVx _ => [.st]
  | .ldI _ | .addI _ | .ldFont _ => [.index]
  | .ldBcd _ | .storeRegs _ => [.mem]

variable {i : Instr} {s t : State}

/-- An instruction that answers a next state changes the parts it lists and no other. -/
theorem exec_keepsAllBut (h : exec i s = .next t) : KeepsAllBut (writtenParts i) s t := by
  cases i with
  | cls => cases h; exact s.withFb_keepsAllBut_fb _
  | ret => obtain ⟨_, rfl⟩ := exec_ret_next h; exact s.withPcSp_keepsAllBut _ _
  | call nnn => obtain ⟨_, rfl⟩ := exec_call_next h; exact s.withPcSpStack_keepsAllBut _ _ _
  | jp nnn | jpV0 nnn => cases h; exact s.jump_keepsAllBut_pc _
  | seByte x nn | sneByte x nn | seReg x y | sneReg x y => cases h; exact s.skipIf_keepsAllBut_pc _
  | skp x => obtain ⟨k, -, rfl⟩ := exec_skp_next h; exact s.skipIf_keepsAllBut_pc _
  | sknp x => obtain ⟨k, -, rfl⟩ := exec_sknp_next h; exact s.skipIf_keepsAllBut_pc _
  | ldByte x nn | addByte x nn | ldReg x y | orReg x y | andReg x y | xorReg x y | ldVxDt x =>
    cases h; exact s.setReg_keepsAllBut_regs x _
  | addReg x y | subReg x y | shr x y | subn x y | shl x y =>
    cases h; exact (s.setRegThenFlag_writesOnlyRegs x _ _).2
  | rnd x nn => cases h; exact s.setReg_withDraws_keepsAllBut _ x _
  | drw x y n => obtain ⟨rfl, -⟩ := exec_drw_next h; exact s.drawSprite_keepsAllBut x y _
  | ldVxKey x =>
    obtain ⟨k, -, rfl⟩ | ⟨-, rfl⟩ := exec_ldVxKey_next h
    · exact (s.setReg_keepsAllBut_regs x _).mono (by simp [writtenParts])
    · exact (s.jump_keepsAllBut_pc _).mono (by simp [writtenParts])
  | ldDtVx x => cases h; exact s.withDt_keepsAllBut_dt _
  | ldStVx x => cases h; exact s.withSt_keepsAllBut_st _
  | ldI nnn | addI x | ldFont x => cases h; exact s.withIndex_keepsAllBut_index _
  | ldBcd x => obtain ⟨rfl, -⟩ := exec_ldBcd_next h; exact s.writeBytes_keepsAllBut_mem _ _
  | storeRegs x => obtain ⟨rfl, -⟩ := exec_storeRegs_next h; exact s.writeBytes_keepsAllBut_mem _ _
  | loadRegs x => obtain ⟨rfl, -⟩ := exec_loadRegs_next h; exact s.setRegsFrom_keepsAllBut_regs 0 _

/-- A step that changed a part other than pc ran an instruction that lists the part. -/
theorem step_changed {p : Part} (hp : p ≠ .pc) (h : step s = .next t) (hchanged : ¬ Keeps s t p) :
    ∃ i, Runs s i ∧ exec i (s.jump (s.pc + 2)) = .next t ∧ p ∈ writtenParts i := by
  obtain ⟨i, hruns, hexec⟩ := step_next h
  have hfetch : Keeps s (s.jump (s.pc + 2)) p := s.jump_keepsAllBut_pc _ p (List.mem_singleton.not.mpr hp)
  exact ⟨i, hruns, hexec, by_contra fun hnot => hchanged (hfetch.trans (exec_keepsAllBut hexec p hnot))⟩

/-! ### Which instructions list a part -/

theorem keys_not_mem_writtenParts (i : Instr) : Part.keys ∉ writtenParts i := by cases i <;> simp [writtenParts]

theorem config_not_mem_writtenParts (i : Instr) : Part.config ∉ writtenParts i := by cases i <;> simp [writtenParts]

theorem stack_mem_writtenParts : Part.stack ∈ writtenParts i ↔ ∃ nnn, i = .call nnn := by
  cases i <;> simp [writtenParts]

theorem sp_mem_writtenParts : Part.sp ∈ writtenParts i ↔ i = .ret ∨ ∃ nnn, i = .call nnn := by
  cases i <;> simp [writtenParts]

theorem fb_mem_writtenParts : Part.fb ∈ writtenParts i ↔ i = .cls ∨ ∃ x y n, i = .drw x y n := by
  cases i <;> simp [writtenParts]

theorem dt_mem_writtenParts : Part.dt ∈ writtenParts i ↔ ∃ x, i = .ldDtVx x := by cases i <;> simp [writtenParts]

theorem st_mem_writtenParts : Part.st ∈ writtenParts i ↔ ∃ x, i = .ldStVx x := by cases i <;> simp [writtenParts]

theorem index_mem_writtenParts :
    Part.index ∈ writtenParts i ↔ (∃ nnn, i = .ldI nnn) ∨ ∃ x, i = .addI x ∨ i = .ldFont x := by
  cases i <;> simp [writtenParts]

theorem mem_mem_writtenParts : Part.mem ∈ writtenParts i ↔ ∃ x, i = .ldBcd x ∨ i = .storeRegs x := by
  cases i <;> simp [writtenParts]

theorem pc_mem_writtenParts : Part.pc ∈ writtenParts i ↔ mayMovePc i = true := by
  cases i <;> simp [writtenParts, mayMovePc]

end Sys2Proof.Machine

/-! PROOFS. The whole-machine rules: which instruction a step must have run for a part of the state to differ. -/

namespace Sys2Proof.Machine

/-- Settles O40: no instruction lists the keypad or the parameters. -/
theorem stepsNeverWriteTheKeypad : Obligations.StepsNeverWriteTheKeypad := by
  intro s t h
  refine ⟨by_contra fun hne => ?_, by_contra fun hne => ?_⟩
  · obtain ⟨i, -, -, hi⟩ := step_changed (p := .keys) (by decide) h hne
    exact keys_not_mem_writtenParts i hi
  · obtain ⟨i, -, -, hi⟩ := step_changed (p := .config) (by decide) h hne
    exact config_not_mem_writtenParts i hi

/-- Settles O41: CALL lists the entries and sp, RET lists sp. -/
theorem onlyCallAndReturnTouchTheStack : Obligations.OnlyCallAndReturnTouchTheStack := by
  intro s t h
  refine ⟨fun hne => ?_, fun hne => ?_⟩
  · obtain ⟨i, hruns, -, hi⟩ := step_changed (p := .stack) (by decide) h hne
    obtain ⟨nnn, rfl⟩ := stack_mem_writtenParts.mp hi
    exact ⟨nnn, hruns⟩
  · obtain ⟨i, hruns, -, hi⟩ := step_changed (p := .sp) (by decide) h hne
    obtain rfl | ⟨nnn, rfl⟩ := sp_mem_writtenParts.mp hi
    · exact .inl hruns
    · exact .inr ⟨nnn, hruns⟩

/-- Settles O42: CLS and DRW list the framebuffer. -/
theorem onlyClearAndDrawWritePixels : Obligations.OnlyClearAndDrawWritePixels := by
  intro s t h hne
  obtain ⟨i, hruns, -, hi⟩ := step_changed (p := .fb) (by decide) h hne
  obtain rfl | ⟨x, y, n, rfl⟩ := fb_mem_writtenParts.mp hi
  · exact .inl hruns
  · exact .inr ⟨x, y, n, hruns⟩

/-- Settles O43: one instruction lists each timer, and it writes its VX. -/
theorem stepsNeverTickTheTimers : Obligations.StepsNeverTickTheTimers := by
  intro s t h
  refine ⟨fun hne => ?_, fun hne => ?_⟩
  · obtain ⟨i, hruns, hexec, hi⟩ := step_changed (p := .dt) (by decide) h hne
    obtain ⟨x, rfl⟩ := dt_mem_writtenParts.mp hi
    cases hexec
    exact ⟨x, hruns, rfl⟩
  · obtain ⟨i, hruns, hexec, hi⟩ := step_changed (p := .st) (by decide) h hne
    obtain ⟨x, rfl⟩ := st_mem_writtenParts.mp hi
    cases hexec
    exact ⟨x, hruns, rfl⟩

/-- Settles O44: three instructions list I. -/
theorem onlyThreeInstructionsWriteIndex : Obligations.OnlyThreeInstructionsWriteIndex := by
  intro s t h hne
  obtain ⟨i, hruns, -, hi⟩ := step_changed (p := .index) (by decide) h hne
  obtain ⟨nnn, rfl⟩ | ⟨x, rfl | rfl⟩ := index_mem_writtenParts.mp hi
  · exact .inl ⟨nnn, hruns⟩
  · exact .inr ⟨x, .inl hruns⟩
  · exact .inr ⟨x, .inr hruns⟩

/-- A byte that a write of consecutive bytes changed lies in its block. -/
theorem State.mem_block_of_changed {a b : Nat} {bytes : List Byte} {s : State}
    (h : (s.writeBytes a bytes).readByte b ≠ s.readByte b) : a ≤ b ∧ b < a + bytes.length := by
  by_contra hout
  exact h (s.readByte_writeBytes_outside (by omega))

/-- Settles O45: two instructions list memory, and each checks its block before it writes it. -/
theorem onlyStoresWriteMemory : Obligations.OnlyStoresWriteMemory := by
  intro s t a h hne
  obtain ⟨i, hruns, hexec, hi⟩ := step_changed (p := .mem) (by decide) h fun hkeeps => hne (hkeeps a)
  obtain ⟨x, rfl | rfl⟩ := mem_mem_writtenParts.mp hi
  · obtain ⟨rfl, hend, hfont⟩ := exec_ldBcd_next hexec
    obtain ⟨hlow, hhigh⟩ : s.index.toNat ≤ a ∧ a < s.index.toNat + 3 := State.mem_block_of_changed hne
    rw [State.jump_index] at hend hfont
    refine ⟨hlow, by omega, fun hclosed => ?_, x, .inl ⟨hruns, by omega⟩⟩
    exact (hfont.resolve_left (Bool.eq_false_iff.mp hclosed)).trans hlow
  · obtain ⟨rfl, hend, hfont⟩ := exec_storeRegs_next hexec
    obtain ⟨hlow, hhigh⟩ := State.mem_block_of_changed hne
    rw [State.jump_index] at hend hfont hlow hhigh
    rw [State.length_regsUpTo] at hhigh
    refine ⟨hlow, by omega, fun hclosed => ?_, x, .inr ⟨hruns, by omega⟩⟩
    exact (hfont.resolve_left (Bool.eq_false_iff.mp hclosed)).trans hlow

/-- An instruction that is no flag writer and whose destination is not VF leaves VF as it was. -/
theorem exec_reg_vf {i : Instr} {s t : State} (h : exec i s = .next t) (hi : mayWriteVf i = false) :
    t.reg Reg.vf = s.reg Reg.vf := by
  cases i with
  | ldByte x _ | addByte x _ | ldReg x _ | orReg x _ | andReg x _ | xorReg x _ | ldVxDt x =>
    cases h
    exact s.reg_setReg_ne (beq_eq_false_iff_ne.mp hi) _
  | rnd x nn =>
    cases h
    exact State.reg_setReg_ne _ (beq_eq_false_iff_ne.mp hi) _
  | ldVxKey x =>
    obtain ⟨k, -, rfl⟩ | ⟨-, rfl⟩ := exec_ldVxKey_next h
    · exact s.reg_setReg_ne (beq_eq_false_iff_ne.mp hi) _
    · exact s.reg_jump _ _
  | loadRegs x =>
    obtain ⟨rfl, -⟩ := exec_loadRegs_next h
    exact s.reg_setRegsFrom_readBytes_gt _ (lt_of_le_of_ne (Fin.le_last x) (beq_eq_false_iff_ne.mp hi))
  | addReg | subReg | shr | subn | shl | drw => cases hi
  | _ => exact exec_keepsAllBut h .regs (by simp [writtenParts]) Reg.vf

/-- Settles O46: `exec_reg_vf` for the instruction that ran. -/
theorem onlyTheListedInstructionsWriteVf : Obligations.OnlyTheListedInstructionsWriteVf := by
  intro s t h hne
  obtain ⟨i, hruns, hexec⟩ := step_next h
  exact ⟨i, hruns, by_contra fun hi => hne (exec_reg_vf (s := s.jump (s.pc + 2)) hexec (Bool.eq_false_iff.mpr hi))⟩

/-- Settles O47: an instruction that does not list pc leaves it where the fetch put it. -/
theorem otherInstructionsLeavePcAtNext : Obligations.OtherInstructionsLeavePcAtNext := by
  intro s t i hruns h hi
  rw [step_of_runs hruns] at h
  exact exec_keepsAllBut h .pc (pc_mem_writtenParts.not.mpr (Bool.eq_false_iff.mp hi))

end Sys2Proof.Machine

/-! PROOFS. The step (spec/30_encoding.md R63 to R65; spec/60_exceptions.md R129, R139): what it runs, when it faults,
and that a fault depends neither on the keypad nor on the random source. -/

namespace Sys2Proof.Machine

/-! ### Fetch and execute -/

theorem step_of_fetch_outside {s : State} (hpc : 4096 ≤ s.pc.toNat + 1) :
    step s = .fault (.memoryOutOfBounds (max s.pc.toNat 4096) .fetch) := by
  simp only [step, fetch_eq, if_neg (Nat.not_lt.mpr hpc), raise]

/-- Settles O3: the word is the one at pc, and `step_of_runs`. -/
theorem stepRunsTheDecodedInstruction : Obligations.StepRunsTheDecodedInstruction := by
  rintro s i hpc ⟨w, hw, hdecode⟩
  exact step_of_runs ⟨hpc, State.wordAt_eq_of_toNat hw ▸ hdecode⟩

/-- Settles O4: both are `step_of_fetch_outside`. -/
theorem fetchOutsideMemoryFaults : Obligations.FetchOutsideMemoryFaults := by
  intro s
  refine ⟨fun hlast => ?_, fun hout => ?_⟩
  · have hpc : s.pc.toNat = 0xFFF := congrArg BitVec.toNat hlast
    rw [step_of_fetch_outside (by omega), hpc]
    rfl
  · rw [step_of_fetch_outside (by omega), max_eq_left hout]

/-- Settles O12: `perform_step_of_fault`. -/
theorem faultLeavesTheStateUnchanged : Obligations.FaultLeavesTheStateUnchanged := fun _ _ => perform_step_of_fault

/-! ### When an instruction faults -/

theorem dite_next_eq_fault {c : Prop} [Decidable c] {a : c → State} {g f : Fault} :
    (if h : c then .next (a h) else .fault g : Result) = .fault f ↔ ¬c ∧ g = f := by
  by_cases h : c <;> simp [h]

theorem ite_next_eq_fault {c : Prop} [Decidable c] {a : State} {g f : Fault} :
    (if c then .next a else .fault g : Result) = .fault f ↔ ¬c ∧ g = f :=
  dite_next_eq_fault (a := fun _ => a)

theorem ite_fault_ite_fault_next_eq_fault {b c : Prop} [Decidable b] [Decidable c] {a : State} {g k f : Fault} :
    (if b then .fault g else if c then .fault k else .next a : Result) = .fault f ↔
      b ∧ g = f ∨ ¬b ∧ c ∧ k = f := by
  by_cases hb : b <;> by_cases hc : c <;> simp [hb, hc]

theorem exec_ldVxKey_ne_fault {x : Reg} {s : State} {f : Fault} : exec (.ldVxKey x) s ≠ .fault f := by
  cases h : s.firstPressed with
  | some k => rw [exec_ldVxKey_of_some x h]; exact nofun
  | none => rw [exec_ldVxKey_of_none x h]; exact nofun

/-- Each check that can fail reads the stack pointer, pc, the registers, I and the parameters only. -/
theorem exec_fault_of_keys_draws {i : Instr} {s : State} {f : Fault} (keys : Vector Bool 16) (draws : Nat)
    (h : exec i s = .fault f) : exec i { s with keys := keys, draws := draws } = .fault f := by
  cases i with
  | ret => rw [exec_ret, dite_next_eq_fault] at h ⊢; exact h
  | call nnn => rw [exec_call, dite_next_eq_fault] at h ⊢; exact h
  | drw x y n => rw [exec_drw, ite_next_eq_fault] at h ⊢; exact h
  | skp x => rw [exec_skp, dite_next_eq_fault] at h ⊢; exact h
  | sknp x => rw [exec_sknp, dite_next_eq_fault] at h ⊢; exact h
  | ldVxKey x => exact absurd h exec_ldVxKey_ne_fault
  | ldBcd x => rw [exec_ldBcd, ite_fault_ite_fault_next_eq_fault] at h ⊢; exact h
  | storeRegs x => rw [exec_storeRegs, ite_fault_ite_fault_next_eq_fault] at h ⊢; exact h
  | loadRegs x => rw [exec_loadRegs, ite_next_eq_fault] at h ⊢; exact h
  | _ => cases h

/-- Settles O13: the fetch and the word are the same, and so is the fault of the instruction. -/
theorem faultsIgnoreRandAndKeypad : Obligations.FaultsIgnoreRandAndKeypad := by
  intro s f keys draws h
  obtain ⟨hpc, rfl⟩ | ⟨hpc, w, hw, rfl⟩ | ⟨i, hruns, hexec⟩ := step_fault h
  · exact step_of_fetch_outside hpc
  · exact step_of_unknown hpc hw
  · have hruns' : Runs { s with keys := keys, draws := draws } i := hruns
    rw [step_of_runs hruns']
    exact exec_fault_of_keys_draws keys draws hexec

end Sys2Proof.Machine

/-! PROOFS. A store over the next instruction (spec/20_memory.md R61): the next fetch reads the bytes the store left.
-/

namespace Sys2Proof.Machine

variable {s t : State} {x : Reg} {b : Nat → Byte}

/-- FX55's block and the bytes around it are all of memory after the store. -/
theorem readByte_after_storeRegs (h : exec (.storeRegs x) s = .next t)
    (hblock : ∀ k : Reg, k ≤ x → b (s.index.toNat + k.val) = s.reg k)
    (hrest : ∀ a, a < s.index.toNat ∨ s.index.toNat + x.val < a → b a = s.readByte a) (a : Nat) :
    t.readByte a = b a := by
  obtain ⟨rfl, -⟩ := exec_storeRegs_next h
  by_cases hout : a < s.index.toNat ∨ s.index.toNat + x.val < a
  · rw [s.readByte_writeBytes_outside (by rw [State.length_regsUpTo]; omega), hrest a hout]
  · obtain ⟨k, rfl⟩ := Nat.exists_eq_add_of_le (show s.index.toNat ≤ a by omega)
    have hk : (⟨k, by omega⟩ : Reg) ≤ x := Fin.le_def.mpr (show k ≤ x.val by omega)
    exact (s.readByte_writeBytes_regsUpTo _ hk).trans (hblock _ hk).symm

/-- FX33's three digits and the bytes around them are all of memory after the store. -/
theorem readByte_after_ldBcd (h : exec (.ldBcd x) s = .next t)
    (hhundreds : (b s.index.toNat).toNat = (s.reg x).toNat / 100)
    (htens : (b (s.index.toNat + 1)).toNat = (s.reg x).toNat / 10 % 10)
    (hones : (b (s.index.toNat + 2)).toNat = (s.reg x).toNat % 10)
    (hrest : ∀ a, a < s.index.toNat ∨ s.index.toNat + 2 < a → b a = s.readByte a) (a : Nat) :
    t.readByte a = b a := by
  obtain ⟨rfl, -⟩ := exec_ldBcd_next h
  obtain ⟨h100, h10, h1⟩ := s.toNat_readByte_writeBytes_bcdDigits s.index.toNat (s.reg x)
  by_cases hout : a < s.index.toNat ∨ s.index.toNat + 2 < a
  · rw [s.readByte_writeBytes_outside (hout.imp_right Nat.succ_le_of_lt), hrest a hout]
  · obtain rfl | rfl | rfl : a = s.index.toNat ∨ a = s.index.toNat + 1 ∨ a = s.index.toNat + 2 := by omega
    · exact BitVec.eq_of_toNat_eq (h100.trans hhundreds.symm)
    · exact BitVec.eq_of_toNat_eq (h10.trans htens.symm)
    · exact BitVec.eq_of_toNat_eq (h1.trans hones.symm)

/-- A step runs the word at pc, or faults with it when no row selects it. -/
theorem step_of_word {w : Word} (hpc : s.pc.toNat + 1 < 4096)
    (hw : w.toNat = (s.readByte s.pc.toNat).toNat * 256 + (s.readByte (s.pc.toNat + 1)).toNat) :
    (∀ i, decode w = .known i → step s = exec i { s with pc := s.pc + 2 }) ∧
      (wordWellFormed w = false → step s = .fault (.unknownInstruction w)) :=
  ⟨fun i hi => stepRunsTheDecodedInstruction s i hpc ⟨w, hw, hi⟩, fun hbad => (unknownWordFaults s w hpc hw hbad).1⟩

/-- Settles O48: memory after the store is b, and pc after it is at the next word. -/
theorem storeIsVisibleToTheNextFetch : Obligations.StoreIsVisibleToTheNextFetch := by
  intro x s t b w h hpc hstore hw
  obtain ⟨hread, htpc⟩ : (∀ a, t.readByte a = b a) ∧ t.pc = s.pc + 2 := by
    rcases hstore with ⟨hruns, hblock, hrest⟩ | ⟨hruns, h100, h10, h1, hrest⟩
    · have hexec := (step_of_runs hruns).symm.trans h
      exact ⟨readByte_after_storeRegs hexec hblock hrest, otherInstructionsLeavePcAtNext s t _ hruns h rfl⟩
    · have hexec := (step_of_runs hruns).symm.trans h
      exact ⟨readByte_after_ldBcd hexec h100 h10 h1 hrest, otherInstructionsLeavePcAtNext s t _ hruns h rfl⟩
  have hnext : t.pc.toNat = s.pc.toNat + 2 := by
    rw [htpc]
    exact BitVec.toNat_add_of_lt (by change s.pc.toNat + 2 < 65536; omega)
  exact step_of_word (by omega) (by rw [hread, hread, hnext, hw])

/-! ### The idle end -/

/-- 0x1000 | A is the encoding of a jump to A. -/
theorem encode_jp_of_lt {a : Word} (ha : a.toNat < 4096) : 0x1000 ||| a = encode (.jp (a.setWidth 12)) := by
  refine BitVec.eq_of_toNat_eq (Eq.trans ?_ (BitVec.toNat_append (1 : BitVec 4) (a.setWidth 12)).symm)
  rw [BitVec.toNat_or, BitVec.toNat_setWidth, Nat.mod_eq_of_lt ha]
  rfl

theorem addrOf_setWidth_of_lt {a : Word} (ha : a.toNat < 4096) : addrOf (a.setWidth 12) = a := by
  refine BitVec.eq_of_toNat_eq ?_
  rw [toNat_addrOf, BitVec.toNat_setWidth]
  exact Nat.mod_eq_of_lt ha

/-- Settles O53: the word decodes to a jump to its own address. -/
theorem idleEndIsAFixedPoint : Obligations.IdleEndIsAFixedPoint := by
  rintro s a ⟨rfl, hlast, hword⟩
  have hlt : s.pc.toNat < 4096 := by omega
  have hruns : Runs s (.jp (s.pc.setWidth 12)) :=
    ⟨by omega, by rw [hword, encode_jp_of_lt hlt, decode_encode]⟩
  rw [step_of_runs hruns, exec_jp, addrOf_setWidth_of_lt hlt]
  rfl

end Sys2Proof.Machine

/-! PROOFS. The invariants (spec/10_state.md R27, R44): canonical memory with the font intact, and the bounds of pc
and the stack, at construct, over a step and over the host interface. -/

namespace Sys2Proof.Machine

variable {i : Instr} {s t : State}

/-! ### Construct -/

theorem Memory.unlisted_font (c : Config) (a : Fin 80) : Memory.unlisted c a.val = c.fontTable[a] := dif_pos a.isLt

theorem Memory.unlisted_of_le (c : Config) {a : Nat} (ha : 80 ≤ a) : Memory.unlisted c a = 0 :=
  dif_neg (Nat.not_lt.mpr ha)

/-- Settles O1: memory reads as unlisted, and the other parts are constant. -/
theorem constructGivesTheResetValues : Obligations.ConstructGivesTheResetValues := by
  refine ⟨rfl, fun c => ⟨Memory.unlisted_font c, fun a ha _ => Memory.unlisted_of_le c ha, fun r => ?_, rfl, rfl,
    fun k => ?_, rfl, rfl, rfl, Framebuffer.clear_getElem, fun k => ?_⟩⟩
  · exact Vector.getElem_replicate r.isLt
  · exact Vector.getElem_replicate k.isLt
  · exact Vector.getElem_replicate k.isLt

/-- Settles O2: the host's reset is construct but for the count of random bytes. -/
theorem hostResetIsConstruct : Obligations.HostResetIsConstruct := fun s =>
  ⟨s.hostReset, rfl, (State.construct s.config).withDraws_keepsAllBut_draws s.draws, rfl, rfl⟩

theorem stateInv_construct (c : Config) : StateInv (State.construct c) :=
  ⟨Memory.nil_wf, fun _ a => Memory.unlisted_font c a⟩

/-- Settles O49: memory lists nothing, and no stack entry is in use. -/
theorem constructMeetsTheInvariants : Obligations.ConstructMeetsTheInvariants := fun c =>
  ⟨stateInv_construct c, show (0x200 : Word).toNat ≤ 0x10FE by decide, fun k hk => absurd hk (Nat.not_lt_zero k.val)⟩

/-! ### Memory and font -/

/-- The invariant speaks of memory and the parameters only. -/
theorem StateInv.of_mem_config_eq (hs : StateInv s) (hmem : t.mem = s.mem) (hconfig : t.config = s.config) :
    StateInv t := by
  simpa only [StateInv, FontIntact, State.readByte, hmem, hconfig] using hs

/-- A write inside memory that keeps to the font's protection keeps the invariant. -/
theorem StateInv.writeBytes (hs : StateInv s) {a : Nat} {bytes : List Byte} (hend : a + bytes.length ≤ 4096)
    (hfont : s.config.fontWritable = true ∨ 80 ≤ a) : StateInv (s.writeBytes a bytes) := by
  obtain ⟨hwf, hintact⟩ := hs
  refine ⟨?_, fun hclosed k => ?_⟩
  · rw [State.writeBytes_config]
    exact s.writeBytes_wf a bytes hend hwf
  · rw [State.writeBytes_config] at hclosed
    have hlow : 80 ≤ a := hfont.resolve_left (Bool.eq_false_iff.mp hclosed)
    rw [s.readByte_writeBytes_outside (.inl (k.isLt.trans_le hlow)), hintact hclosed k]
    simp only [State.writeBytes_config]

/-- An instruction that does not list memory leaves the very list of cells. -/
theorem exec_mem_eq (h : exec i s = .next t) (hi : Part.mem ∉ writtenParts i) : t.mem = s.mem := by
  cases i with
  | ldBcd x | storeRegs x => exact absurd List.mem_cons_self hi
  | ret => obtain ⟨_, rfl⟩ := exec_ret_next h; rfl
  | call nnn => obtain ⟨_, rfl⟩ := exec_call_next h; rfl
  | seByte x nn | sneByte x nn | seReg x y | sneReg x y => cases h; exact s.skipIf_mem _
  | skp x => obtain ⟨k, -, rfl⟩ := exec_skp_next h; exact s.skipIf_mem _
  | sknp x => obtain ⟨k, -, rfl⟩ := exec_sknp_next h; exact s.skipIf_mem _
  | drw x y n => obtain ⟨rfl, -⟩ := exec_drw_next h; rfl
  | ldVxKey x => obtain ⟨k, -, rfl⟩ | ⟨-, rfl⟩ := exec_ldVxKey_next h <;> rfl
  | loadRegs x => obtain ⟨rfl, -⟩ := exec_loadRegs_next h; exact s.setRegsFrom_mem 0 _
  | _ => cases h; rfl

theorem exec_stateInv (hs : StateInv s) (h : exec i s = .next t) : StateInv t := by
  by_cases hi : Part.mem ∈ writtenParts i
  · obtain ⟨x, rfl | rfl⟩ := mem_mem_writtenParts.mp hi
    · obtain ⟨rfl, hend, hfont⟩ := exec_ldBcd_next h
      exact hs.writeBytes hend hfont
    · obtain ⟨rfl, hend, hfont⟩ := exec_storeRegs_next h
      exact hs.writeBytes (by rw [State.length_regsUpTo]; omega) hfont
  · exact hs.of_mem_config_eq (exec_mem_eq h hi) (exec_keepsAllBut h .config (config_not_mem_writtenParts i))

/-- Settles O50: the fetch leaves memory and the parameters, and `exec_stateInv`. -/
theorem stepKeepsMemoryAndFont : Obligations.StepKeepsMemoryAndFont := by
  intro s t hs h
  obtain ⟨i, -, hexec⟩ := step_next h
  exact exec_stateInv (s := s.jump (s.pc + 2)) (hs.of_mem_config_eq rfl rfl) hexec

/-! ### pc and the stack -/

/-- Every stack entry in use is at most 0x1000. -/
def StackBounded (s : State) : Prop := ∀ k : Fin 16, k.val < s.sp.val → s.stack[k].toNat ≤ 0x1000

/-- CALL pushes the advanced pc; RET takes an entry away. -/
theorem exec_stackBounded (hs : StackBounded s) (hpc : s.pc.toNat ≤ 0x1000) (h : exec i s = .next t) :
    StackBounded t := by
  by_cases hsp : Part.sp ∈ writtenParts i
  · obtain rfl | ⟨nnn, rfl⟩ := sp_mem_writtenParts.mp hsp
    · obtain ⟨hpos, rfl⟩ := exec_ret_next h
      exact fun k hk => hs k (hk.trans_le (Nat.sub_le _ _))
    · obtain ⟨hlt, rfl⟩ := exec_call_next h
      intro k hk
      simp only [Fin.getElem_fin, Vector.getElem_set]
      split
      · exact hpc
      · exact hs k (by change k.val < s.sp.val + 1 at hk; omega)
  · have hstack : Part.stack ∉ writtenParts i := fun hmem =>
      hsp (sp_mem_writtenParts.mpr (.inr (stack_mem_writtenParts.mp hmem)))
    have hsp_eq : t.sp = s.sp := exec_keepsAllBut h .sp hsp
    have hstack_eq : t.stack = s.stack := exec_keepsAllBut h .stack hstack
    simpa only [StackBounded, hsp_eq, hstack_eq] using hs

theorem State.skipIf_pc_le (c : Bool) (hpc : s.pc.toNat ≤ 0x1000) : (s.skipIf c).pc.toNat ≤ 0x1002 := by
  cases c with
  | true =>
    have hskip : (s.pc + 2).toNat = s.pc.toNat + 2 :=
      BitVec.toNat_add_of_lt (by change s.pc.toNat + 2 < 65536; omega)
    exact hskip.trans_le (by omega)
  | false => exact hpc.trans (by decide)

/-- The highest pc is that of BNNN with V0 = 0xFF and NNN = 0xFFF. -/
theorem exec_pc_le (hs : StackBounded s) (hlow : 2 ≤ s.pc.toNat) (hpc : s.pc.toNat ≤ 0x1000) (h : exec i s = .next t) :
    t.pc.toNat ≤ 0x10FE := by
  cases i with
  | ret =>
    obtain ⟨hpos, rfl⟩ := exec_ret_next h
    exact (hs ⟨s.sp.val - 1, by omega⟩ (Nat.sub_lt hpos Nat.one_pos)).trans (by decide)
  | jp nnn =>
    cases h
    have hnnn := nnn.isLt
    rw [State.jump_pc, toNat_addrOf]
    omega
  | call nnn =>
    obtain ⟨_, rfl⟩ := exec_call_next h
    have hnnn := nnn.isLt
    rw [toNat_addrOf]
    omega
  | jpV0 nnn =>
    cases h
    have hnnn := nnn.isLt
    have hv0 := (s.reg 0).isLt
    rw [State.jump_pc, toNat_v0Target]
    omega
  | seByte x nn | sneByte x nn | seReg x y | sneReg x y => cases h; exact (State.skipIf_pc_le _ hpc).trans (by decide)
  | skp x => obtain ⟨k, -, rfl⟩ := exec_skp_next h; exact (State.skipIf_pc_le _ hpc).trans (by decide)
  | sknp x => obtain ⟨k, -, rfl⟩ := exec_sknp_next h; exact (State.skipIf_pc_le _ hpc).trans (by decide)
  | ldVxKey x =>
    obtain ⟨k, -, rfl⟩ | ⟨-, rfl⟩ := exec_ldVxKey_next h
    · exact hpc.trans (by decide)
    · have hback : (s.pc - 2).toNat = s.pc.toNat - 2 := BitVec.toNat_sub_of_le hlow
      rw [State.jump_pc, hback]
      omega
  | _ =>
    have hkept : t.pc = s.pc := exec_keepsAllBut h .pc (by simp [writtenParts])
    rw [hkept]
    omega

/-- Settles O51: the fetch checks that pc + 1 is inside memory, so that the advanced pc is at most 0x1000. -/
theorem stepKeepsPcBounded : Obligations.StepKeepsPcBounded := by
  rintro s t ⟨-, hstack⟩ h
  obtain ⟨i, ⟨hin, -⟩, hexec⟩ := step_next h
  have hnext : (s.jump (s.pc + 2)).pc.toNat = s.pc.toNat + 2 :=
    BitVec.toNat_add_of_lt (by change s.pc.toNat + 2 < 65536; omega)
  have hbounded : StackBounded (s.jump (s.pc + 2)) := hstack
  exact ⟨exec_pc_le hbounded (by omega) (by omega) hexec, exec_stackBounded hbounded (by omega) hexec⟩

/-! ### The host interface -/

/-- A checked operation keeps what its completion keeps. -/
theorem performChecked_stateInv {r : Except HostError State} (hs : StateInv s)
    (hok : ∀ t, r = .ok t → StateInv t) : StateInv (performChecked s r).2 := by
  cases r with
  | ok t => exact hok t rfl
  | error e => exact hs

theorem performStep_stateInv (hs : StateInv s) : StateInv (performStep s).2 := by
  unfold performStep
  split
  next t h => exact stepKeepsMemoryAndFont s t hs h
  next => exact hs
  next => exact hs

theorem loadProgram_stateInv {image : List Byte} (hs : StateInv s) (h : loadProgram s image = .ok t) :
    StateInv t := by
  unfold loadProgram at h
  split at h
  next => cases h
  next hfits =>
    cases h
    exact hs.writeBytes (by simp only [Config.maxProgramLen, Config.programStart] at *; omega) (.inr (by decide))

theorem setKey_stateInv {index : Nat} {pressed : Bool} (hs : StateInv s) (h : setKey s index pressed = .ok t) :
    StateInv t := by
  unfold setKey at h
  split at h
  next => cases h; exact hs.of_mem_config_eq rfl rfl
  next => cases h

/-- One operation keeps the invariant, a restore being of a copy of a state that meets it. -/
theorem perform_stateInv (op : HostOp) (hs : StateInv s)
    (hcopy : ∀ c, op = .restore c → ∃ u : State, StateInv u ∧ u.snapshot = c) : StateInv (perform op s).2 := by
  cases op with
  | reset => exact (stateInv_construct s.config).of_mem_config_eq rfl rfl
  | loadProgram image => exact performChecked_stateInv hs fun _ => loadProgram_stateInv hs
  | step => exact performStep_stateInv hs
  | tickTimers => exact hs.of_mem_config_eq rfl rfl
  | setKey index pressed => exact performChecked_stateInv hs fun _ => setKey_stateInv hs
  | restore c =>
    obtain ⟨u, hu, rfl⟩ := hcopy c rfl
    exact hu.of_mem_config_eq rfl rfl
  | framebuffer | soundActive | snapshot | registerDump => exact hs

/-- Settles O52: by induction over the operations, with `perform_stateInv` for each. -/
theorem hostOperationsKeepMemoryAndFont : Obligations.HostOperationsKeepMemoryAndFont := by
  intro ops
  induction ops with
  | nil => exact fun s hs _ => hs
  | cons op rest ih =>
    intro s hs hcopies
    refine ih _ (perform_stateInv op hs fun c hc => ?_) fun c hc => hcopies c (List.mem_cons_of_mem op hc)
    exact hcopies c (hc ▸ List.mem_cons_self)

end Sys2Proof.Machine

/-! PROOFS. The host operations (spec/60_exceptions.md R146 to R157): what load_program and set_key write or reject,
what restore gives back, and that the observations write nothing. -/

namespace Sys2Proof.Machine

/-- Settles O55: load_program by the length of the image. -/
theorem loadProgramCopiesTheImage : Obligations.LoadProgramCopiesTheImage := by
  intro b s
  refine ⟨fun hlong => ?_, fun hfits => ⟨s.writeBytes 0x200 b, ?_, fun k hk => ?_, s.writeBytes_writesOnlyBytes _ b⟩⟩
  · simp only [perform, loadProgram, Config.maxProgramLen, if_pos hlong, performChecked]
  · simp only [perform, loadProgram, Config.maxProgramLen, if_neg (Nat.not_lt.mpr hfits), performChecked,
      Config.programStart]
  · rw [s.readByte_writeBytes_inside _ hk, List.getD_eq_getElem _ _ hk]

/-- Settles O56: set_key by the index. -/
theorem setKeySetsOneKey : Obligations.SetKeySetsOneKey := by
  intro index pressed s
  refine ⟨fun hout => ?_, fun hin =>
    ⟨{ s with keys := s.keys.set index pressed }, ?_, fun k => ?_, s.withKeys_keepsAllBut_keys _⟩⟩
  · simp only [perform, setKey, dif_neg (Nat.not_lt.mpr hout), performChecked]
  · simp only [perform, setKey, dif_pos hin, performChecked]
  · simp only [Fin.getElem_fin, Vector.getElem_set, eq_comm]

/-- Settles O57: a restore replaces every part but the count of random bytes. -/
theorem restoreGivesBackTheSnapshot : Obligations.RestoreGivesBackTheSnapshot := fun s ops =>
  ⟨(performAll ops s).2.restore s.snapshot, rfl, rfl, rfl⟩

theorem State.soundActive_eq (s : State) : s.soundActive = decide (s.st.toNat ≠ 0) := by
  rw [Bool.eq_iff_iff, State.soundActive, bne_iff_ne, decide_eq_true_iff, ← BitVec.toNat_ne_iff_ne]
  rfl

/-- Settles O58: each answers from the state it leaves alone. -/
theorem observationsChangeNothing : Obligations.ObservationsChangeNothing := fun s =>
  ⟨rfl, congrArg (fun b => (Reply.sound b, s)) s.soundActive_eq, rfl, _, rfl⟩

end Sys2Proof.Machine
